-- ==== Sys2Proof/Word.lean ====
section
/-! DEFINITION. The data types of the engine: bytes, command words, 16-byte blocks, the 32-byte key array. -/

namespace Sys2Proof

/-- A byte: 8 bits, unsigned, bit 7 its most significant (spec 00_scope.md R7). -/
abbrev Byte := BitVec 8

/-- A command word `cmd[15:0]`, and the 16-bit `STATUS` view (30_encoding.md R60, 10_state.md R20). -/
abbrev Word16 := BitVec 16

/-- A block: exactly 16 bytes, `B[0]` the first and most significant (00_scope.md R7, 20_memory.md R42). -/
abbrev Block := Vector Byte 16

/-- The contents of the `KEY` register, `KEY[0..31]` (10_state.md R11). -/
abbrev KeyArray := Vector Byte 32

end Sys2Proof
end

