-- ==== Sys2Proof/Config.lean ====
section
/-! DEFINITION. The parameters of the block (00_scope.md R6) and its one open parameter, the cipher oracle. -/

namespace Sys2Proof

/-- The type of a cipher oracle: a key (as its bytes, 16, 24 or 32 of them) and a plaintext block give a
ciphertext block (43_cipher_oracle.md R140).
That it is a Lean function is P-FUN and P-TOTAL of R142; log entry 1 says what follows. -/
abbrev Oracle := List Byte → Block → Block

namespace Config

/-- `E`, the OPEN parameter of the spec (92_eei_decisions.md D17, 43_cipher_oracle.md R140): nothing fixes its values,
so it has no body here and no proof can learn one. -/
opaque E : Oracle

/-- `KEY_LENGTHS`: the accepted key lengths in bytes (00_scope.md R6). -/
def keyLengths : List Nat := [16, 24, 32]

/-- `KEY_BUF_BYTES`: the size of the `KEY` register (00_scope.md R6). -/
def keyBufBytes : Nat := 32

/-- `KLEN_SAT`: the value at which the key byte counter saturates (00_scope.md R6). -/
def klenSat : Nat := 33

/-- `BLOCK_BYTES`: the size of a block in bytes (00_scope.md R6). -/
def blockBytes : Nat := 16

end Config
end Sys2Proof
end

