-- ==== Sys2Proof/Machine/State.lean ====
section
/-! DEFINITION. The state of the machine: the registers of 10_state.md R10, and what stands at the engine's three ports
(20_memory.md R41) between two steps. Plain data. -/

namespace Sys2Proof.Machine

/-- The four errors of 60_exceptions.md R171; no other exists. -/
inductive ErrorCode where
  /-- `ERR_INVALID_KEY_SIZE` (R172), the source's `InvalidKeySize`. -/
  | invalidKeySize
  /-- `ERR_ILLEGAL_CMD` (R173). -/
  | illegalCmd
  /-- `ERR_BAD_STATE` (R174). -/
  | badState
  /-- `ERR_NO_TAG` (R175). -/
  | noTag
deriving DecidableEq, Repr

/-- A response (30_encoding.md R66). Its code and data as they stand on the port are `Response.code` and
`Response.data` of Machine/Ports.lean. -/
inductive Response where
  | ok
  | tag (t : Block)
  | status (s : Word16)
  | error (e : ErrorCode)
deriving DecidableEq, Repr

/-- One request on the oracle port: `enc_klen`, `enc_key`, `enc_pt` (43_cipher_oracle.md R141). -/
structure Request where
  klen : BitVec 6
  key : KeyArray
  pt : Block
deriving DecidableEq, Repr

/-- One request the engine made and the ciphertext it was answered with.
`ct = none`: a reset abandoned the request before its answer was used (70_reset_and_hazards.md R203). -/
structure OracleCall where
  req : Request
  ct : Option Block
deriving DecidableEq, Repr

/-- A command in progress (R201, R203): its word, and the oracle request it has outstanding, if it makes one (R22). -/
structure InFlight where
  word : Word16
  req : Option Request
deriving DecidableEq, Repr

/-- What the agents outside the engine (the host, the oracle, whoever drives `rst`) do during one step.
The schedule of cues is the model's way to let data in the state say which agent moves (log entry 3). -/
inductive Cue where
  /-- The host takes responses and the oracle answers at once. -/
  | go
  /-- The command in progress is not finished in this step: the oracle does not answer (43_cipher_oracle.md R145), or
  the engine simply takes longer (70_reset_and_hazards.md R210). -/
  | hold
  /-- The host does not take a response in this step (R209: the engine stalls, no data is lost). -/
  | rspStall
  /-- An answer to a request that a reset abandoned arrives; it is accepted and discarded (R203). -/
  | lateAnswer (ct : Block)
  /-- `rst` is asserted (R200, R203). -/
  | rst
deriving DecidableEq, Repr

/-- The architectural registers of one engine (10_state.md R10). `STATUS` is a view and has no storage (R20):
`Regs.status` of Machine/Flags.lean. -/
structure Regs where
  /-- `KEY`, 32 bytes (R11). -/
  key : KeyArray
  /-- `KLEN`, 6-bit unsigned, 0 to 33 (R12). -/
  klen : BitVec 6
  /-- `KEYED`, one bit (R13). -/
  keyed : Bool
  /-- `K1`, 16 bytes (R14). -/
  k1 : Block
  /-- `K2`, 16 bytes (R14). -/
  k2 : Block
  /-- `X`, the chaining value, 16 bytes (R15). -/
  x : Block
  /-- `BUF`, 16 bytes (R16). -/
  buf : Block
  /-- `CNT`, 5-bit unsigned, 0 to 16 (R17). -/
  cnt : BitVec 5
  /-- `TAG`, 16 bytes (R18). -/
  tag : Block
  /-- `TAGV`, one bit (R18). -/
  tagv : Bool
deriving DecidableEq, Repr

/-- The register values after reset and after `CLR` (10_state.md R30): all zero. -/
def Regs.reset : Regs where
  key := Vector.replicate 32 0
  klen := 0
  keyed := false
  k1 := Vector.replicate 16 0
  k2 := Vector.replicate 16 0
  x := Vector.replicate 16 0
  buf := Vector.replicate 16 0
  cnt := 0
  tag := Vector.replicate 16 0
  tagv := false

/-- The machine: the registers, and the three ports. -/
structure State where
  /-- The registers of R10. -/
  regs : Regs
  /-- Command port: the words the host presents, in order; the first is the one presented now (R9, R41, R48). -/
  cmds : List Word16
  /-- What the outside agents do in the coming steps; an empty schedule means `Cue.go` for ever (log entry 3). -/
  cues : List Cue
  /-- The command in progress, accepted and not yet finished (R201, R203). -/
  inFlight : Option InFlight
  /-- Response port: the response offered and not yet taken (R201, R209). -/
  rspPort : Option Response
  /-- The responses the host has taken, oldest first (R9 (a)). -/
  rsps : List Response
  /-- The oracle requests made and their answers, oldest first (R9 (b)). -/
  calls : List OracleCall
deriving DecidableEq, Repr

/-- The state after reset (70_reset_and_hazards.md R201): every register zero, no command in progress, no response
pending, no oracle request outstanding. Nothing has been presented, answered or asked yet. -/
def State.reset : State where
  regs := Regs.reset
  cmds := []
  cues := []
  inFlight := none
  rspPort := none
  rsps := []
  calls := []

/-- Reasons for the machine to stop with a fault. There are none: every error of this hardware is a response and the
engine goes on (60_exceptions.md R170), so nobody raises a fault. -/
inductive Fault where
deriving DecidableEq, Repr

/-- Reasons for the model to have no meaning. -/
inductive Refusal where
  /-- An arm of `exec` for a command not modelled yet raises it; no arm does, since every command has its meaning.
  Safe: the model stops where the hardware goes on. -/
  | notModelled (mnemonic : String)
deriving DecidableEq, Repr

end Sys2Proof.Machine
end

