-- ==== Sys2Proof/Machine/Operands.lean ====
section
/-! DEFINITION. The block utilities of 42_block_utilities.md, the number a block stands for, the bus order, and the one
addressing mode of the engine (20_memory.md R46). -/

namespace Sys2Proof.Machine

/-- `ZERO16` (R120). -/
def zero16 : Block := Vector.replicate 16 0

/-- 32 zero bytes, `0x00^32` (40_subkey_derivation.md R84). -/
def zero32 : KeyArray := Vector.replicate 32 0

/-- `RB`: fifteen `0x00` bytes, then `0x87` (40_subkey_derivation.md R82). -/
def rb : Block := zero16.set 15 0x87

/-- `PAD_BYTE` (00_scope.md R6). -/
def padByte : Byte := 0x80

/-- `XOR16(a, b)`: byte by byte (R121). -/
def xor16 (a b : Block) : Block := Vector.ofFn fun i => a[i] ^^^ b[i]

/-- `SHL1(a)`, byte by byte as R122 writes it: a logical shift, the top bit discarded (90_conflicts.md C1). -/
def shl1 (a : Block) : Block :=
  Vector.ofFn fun i => (a[i] <<< 1) ||| (if h : i.val + 1 < 16 then a[i.val + 1] >>> 7 else 0)

/-- `PAD(buf, c)` (R124): the first `c` bytes, then `0x80`, then zeros.
Outside its domain (`c` of 16 or more, which no run reaches: 93_implementation_defined.md U6) it gives `buf` back. -/
def pad (buf : Block) (c : Nat) : Block :=
  Vector.ofFn fun i => if i.val < c then buf[i] else if i.val = c then padByte else 0

/-- The block whose bytes are the first 16 of `l`, with zero bytes after them where `l` is shorter
(the `.. ++ 0x00^k` of 10_state.md R29 and 41_tag_computation.md R100). -/
def blockOf (l : List Byte) : Block := Vector.ofFn fun i => l.getD i.val 0

/-- The number a byte string stands for, its first byte the most significant (20_memory.md R42). -/
def numberOf : List Byte → Nat
  | [] => 0
  | b :: rest => 256 ^ rest.length * b.toNat + numberOf rest

/-- `val(B)`, the unsigned 128-bit number a block stands for: the sum over `i` of `B[i] * 256^(15-i)`
(00_scope.md R7; `val_eq_sum` of Laws/Block.lean says it as that sum). -/
def val (b : Block) : Nat := numberOf b.toList

/-- Bit `j` of a block, bit 127 the most significant (00_scope.md R7). -/
def blockBit (b : Block) (j : Fin 128) : Bool := b[15 - j.val / 8].getLsbD (j.val % 8)

/-- The bytes of a list on a bus, the first byte on the highest bits (20_memory.md R44). -/
def busOf : (l : List Byte) → BitVec (8 * l.length)
  | [] => 0#0
  | b :: rest => (b ++ busOf rest).cast (by simp; omega)

/-- A block on a 128-bit bus: `B[0]` on bits [127:120] (20_memory.md R44). -/
def blockBus (b : Block) : BitVec 128 := (busOf b.toList).cast (by simp)

/-- `KEY` on `enc_key[255:0]`: `KEY[0]` on bits [255:248] (20_memory.md R44). -/
def keyBus (k : KeyArray) : BitVec 256 := (busOf k.toList).cast (by simp)

/-- `KEY[0 .. KLEN)`: the key the engine hands to the oracle (43_cipher_oracle.md R140). -/
def keySlice (r : Regs) : List Byte := r.key.toList.take r.klen.toNat

/-- `KEY[KLEN] <- b ; KLEN <- KLEN + 1`, the post-incremented counter index of 20_memory.md R46. -/
def appendKeyByte (r : Regs) (b : Byte) : Regs :=
  { r with key := r.key.setIfInBounds r.klen.toNat b, klen := r.klen + 1 }

/-- `BUF[CNT] <- b ; CNT <- CNT + 1`, the post-incremented counter index of 20_memory.md R46.
Where `CNT` is 16 or more there is no byte to write; no command reaches that (log entry 6). -/
def appendBufByte (r : Regs) (b : Byte) : Regs :=
  { r with buf := r.buf.setIfInBounds r.cnt.toNat b, cnt := r.cnt + 1 }

/-- `X <- ZERO16 ; BUF <- ZERO16 ; CNT <- 0`: the engine at a message boundary (R84, R106). -/
def toBoundary (r : Regs) : Regs := { r with x := zero16, buf := zero16, cnt := 0 }

end Sys2Proof.Machine
end

