-- ==== Sys2Proof/Machine/Flags.lean ====
section
/-! DEFINITION. Flags and status: the transient flag `MSB(a)` of `DBL`, and the `STATUS` view (10_state.md R19, R20). -/

namespace Sys2Proof.Machine

/-- `MSB(a)`: bit 7 of `a[0]`, read before the shift (42_block_utilities.md R123). It is not stored (10_state.md R19). -/
def msb (a : Block) : Bool := a[0].getLsbD 7

/-- A one-bit register as a bit of `STATUS`. -/
def flagBit (b : Bool) : Word16 := if b then 1 else 0

/-- `STATUS = (KLEN << 8) | (CNT << 3) | (TAGV << 1) | KEYED` (10_state.md R20). -/
def Regs.status (r : Regs) : Word16 :=
  (r.klen.setWidth 16 <<< 8) ||| (r.cnt.setWidth 16 <<< 3) ||| (flagBit r.tagv <<< 1) ||| flagBit r.keyed

/-- `KLEN` is one of 16, 24, 32 (40_subkey_derivation.md R85). -/
def validKeyLength (klen : BitVec 6) : Bool := Config.keyLengths.contains klen.toNat

/-- What the sequencing of commands may depend on: `KEYED`, `KLEN`, `CNT`, `TAGV` and no data byte
(42_block_utilities.md R125 (c)). -/
structure Shape where
  keyed : Bool
  klen : BitVec 6
  cnt : BitVec 5
  tagv : Bool
deriving DecidableEq, Repr

/-- The shape of the registers. -/
def Regs.shape (r : Regs) : Shape := ⟨r.keyed, r.klen, r.cnt, r.tagv⟩

end Sys2Proof.Machine
end

