-- ==== Sys2Proof/Machine/Ops.lean ====
section
/-! DEFINITION. What every command is made of: its effect (register writes, oracle calls, one response), the calls of the
oracle, `DBL` and `DERIVE`, how an error is raised, and how an effect becomes part of the state. -/

namespace Sys2Proof.Machine

/-- All that one command does (00_scope.md R5, R9): the registers it leaves, the oracle calls it made in order, and its
one response. A command is atomic, so this is all there is to see of it. -/
structure Effect where
  regs : Regs
  calls : List OracleCall
  rsp : Response
deriving DecidableEq, Repr

/-- `respond`: the command ends with the response `p` and the registers `r`, having called no oracle (R8). -/
def respond (r : Regs) (p : Response) : Effect := { regs := r, calls := [], rsp := p }

/-- `raise e` (R8, 60_exceptions.md R170): the error is a response and nothing else happens; no register is written, no
handler is entered, no state is saved. -/
def raise (r : Regs) (e : ErrorCode) : Effect := respond r (.error e)

/-- The request `ENC(p)` puts on the oracle port: `KLEN`, all of `KEY`, and `p` (43_cipher_oracle.md R141). -/
def request (r : Regs) (p : Block) : Request := { klen := r.klen, key := r.key, pt := p }

/-- The oracle's answer to a request: `E(KEY[0 .. KLEN), p)`; the key bytes from `KLEN` on are ignored (R141). -/
def answer (E : Oracle) (q : Request) : Block := E (q.key.toList.take q.klen.toNat) q.pt

/-- `ENC(p) = E(KEY[0 .. KLEN), p)` (43_cipher_oracle.md R140). -/
def enc (E : Oracle) (r : Regs) (p : Block) : Block := E (keySlice r) p

/-- The call of the oracle that evaluating `ENC(p)` makes: the request and the answer to it. -/
def encCall (E : Oracle) (r : Regs) (p : Block) : OracleCall :=
  { req := request r p, ct := some (answer E (request r p)) }

/-- `DBL(a) = XOR16(SHL1(a), m)` with `m = RB` when `MSB(a) = 1` and `ZERO16` otherwise (40_subkey_derivation.md R81). -/
def dbl (a : Block) : Block := xor16 (shl1 a) (if msb a then rb else zero16)

/-- The inverse of `DBL` that 40_subkey_derivation.md R88 writes out: bit 0 of the last byte tells whether `RB` was
XORed in; undo that, shift right by one bit, and put that bit on top. -/
def halve (b : Block) : Block :=
  let top := b[15].getLsbD 0
  let s := if top then xor16 b rb else b
  let carryInto (i : Fin 16) : Byte := if i.val = 0 then (if top then 0x80 else 0) else s[i.val - 1] <<< 7
  Vector.ofFn fun i => (s[i] >>> 1) ||| carryInto i

/-- `DERIVE(key) = (K1, K2)` (40_subkey_derivation.md R80). -/
def derive (E : Oracle) (key : List Byte) : Block × Block :=
  let l := E key zero16
  let k1 := dbl l
  let k2 := dbl k1
  (k1, k2)

/-- The response port after a command: its effect is written to the state all at once (20_memory.md R46, R48), and its
one response is offered to the host. -/
def State.commit (s : State) (e : Effect) : State :=
  { s with regs := e.regs, calls := s.calls ++ e.calls, rspPort := some e.rsp }

/-- The host takes the response that is offered, if one is (20_memory.md R41). -/
def State.takeResponse (s : State) : State :=
  { s with rspPort := none, rsps := s.rsps ++ s.rspPort.toList }

/-- The oracle call a reset leaves behind: the request outstanding, never answered (70_reset_and_hazards.md R203). -/
def InFlight.abandoned (f : InFlight) : List OracleCall := (f.req.map fun q => ⟨q, none⟩).toList

/-- Reset (70_reset_and_hazards.md R200, R203): all registers at their reset values, the command in progress abandoned
without a response, a response not yet taken dropped, no request outstanding. Responses already handed over stand, and
command words not yet accepted are not accepted. -/
def State.afterReset (s : State) : State :=
  { s with
    regs := Regs.reset
    inFlight := none
    rspPort := none
    calls := s.calls ++ (s.inFlight.map InFlight.abandoned).getD [] }

/-- Apply `f` to the next state of an outcome. -/
def mapNext (f : State → State) : Host.Outcome State Fault Refusal → Host.Outcome State Fault Refusal
  | .next s => .next (f s)
  | .fault r => .fault r
  | .refused r => .refused r

/-- The next state of an outcome, if it has one. -/
def nextState? : Host.Outcome State Fault Refusal → Option State
  | .next s => some s
  | .fault _ => none
  | .refused _ => none

end Sys2Proof.Machine
end

