-- ==== Sys2Proof/Machine/Chaining.lean ====
section
/-! DEFINITION. The commands of 41_tag_computation.md: `MSGB` and `FINAL`. -/

namespace Sys2Proof.Machine

/-- The plaintext with which a full buffer is chained, `XOR16(X, BUF)` (41_tag_computation.md R105). -/
def retirePlaintext (r : Regs) : Block := xor16 r.x r.buf

/-- `X <- ENC(XOR16(X, BUF)) ; BUF <- ZERO16 ; CNT <- 0`: the buffered block is not the last one and is chained (R105). -/
def retireBlock (E : Oracle) (r : Regs) : Regs :=
  { r with x := enc E r (retirePlaintext r), buf := zero16, cnt := 0 }

/-- `MSGB b` (41_tag_computation.md R105). -/
def msgbEffect (E : Oracle) (b : Byte) (r : Regs) : Effect :=
  if !r.keyed then raise r .badState
  else if r.cnt = 16 then
    { regs := appendBufByte (retireBlock E r) b, calls := [encCall E r (retirePlaintext r)], rsp := .ok }
  else respond (appendBufByte r b) .ok

/-- The last block after the subkey has been XORed in: a full buffer with `K1`, else the padded buffer with `K2` (R106). -/
def lastBlockOfBuf (r : Regs) : Block :=
  if r.cnt = 16 then xor16 r.buf r.k1 else xor16 (pad r.buf r.cnt.toNat) r.k2

/-- The plaintext of the last oracle call of a message, `XOR16(X, last)` (R106). -/
def finalPlaintext (r : Regs) : Block := xor16 r.x (lastBlockOfBuf r)

/-- `FINAL` (41_tag_computation.md R106). -/
def finalEffect (E : Oracle) (r : Regs) : Effect :=
  if !r.keyed then raise r .badState
  else
    let t := enc E r (finalPlaintext r)
    { regs := toBoundary { r with tag := t, tagv := true }
      calls := [encCall E r (finalPlaintext r)]
      rsp := .tag t }

/-- The meaning of `MSGB b`, with the open oracle `E`. -/
def execMsgb (b : Byte) (s : State) : Host.Outcome State Fault Refusal := .next (s.commit (msgbEffect Config.E b s.regs))

/-- The meaning of `FINAL`, with the open oracle `E`. -/
def execFinal (s : State) : Host.Outcome State Fault Refusal := .next (s.commit (finalEffect Config.E s.regs))

end Sys2Proof.Machine
end

