-- ==== Sys2Proof/Machine/Control.lean ====
section
/-! DEFINITION. The commands of 44_control_commands.md: `NOP`, `CLR`, `RDTAG`, `STAT`. -/

namespace Sys2Proof.Machine

/-- `NOP` (44_control_commands.md R150). -/
def nopEffect (r : Regs) : Effect := respond r .ok

/-- The register writes of `CLR`, one by one as 44_control_commands.md R151 gives them. -/
def cleared (r : Regs) : Regs :=
  { r with
    key := zero32, klen := 0, keyed := false
    k1 := zero16, k2 := zero16
    x := zero16, buf := zero16, cnt := 0
    tag := zero16, tagv := false }

/-- `CLR` (44_control_commands.md R151). -/
def clrEffect (r : Regs) : Effect := respond (cleared r) .ok

/-- `RDTAG` (44_control_commands.md R152); it does not test `KEYED`. -/
def rdtagEffect (r : Regs) : Effect := if !r.tagv then raise r .noTag else respond r (.tag r.tag)

/-- `STAT` (44_control_commands.md R153). -/
def statEffect (r : Regs) : Effect := respond r (.status r.status)

/-- The meaning of `NOP`. -/
def execNop (s : State) : Host.Outcome State Fault Refusal := .next (s.commit (nopEffect s.regs))

/-- The meaning of `CLR`. -/
def execClr (s : State) : Host.Outcome State Fault Refusal := .next (s.commit (clrEffect s.regs))

/-- The meaning of `RDTAG`. -/
def execRdtag (s : State) : Host.Outcome State Fault Refusal := .next (s.commit (rdtagEffect s.regs))

/-- The meaning of `STAT`. -/
def execStat (s : State) : Host.Outcome State Fault Refusal := .next (s.commit (statEffect s.regs))

end Sys2Proof.Machine
end

