-- ==== Sys2Proof/Machine/Subkey.lean ====
section
/-! DEFINITION. The commands of 40_subkey_derivation.md: `KEYB` and `INIT`. -/

namespace Sys2Proof.Machine

/-- `KEYB b` (40_subkey_derivation.md R83). -/
def keybEffect (b : Byte) (r : Regs) : Effect :=
  if r.keyed then raise r .badState
  else if r.klen.toNat < Config.keyBufBytes then respond (appendKeyByte r b) .ok
  else respond { r with klen := BitVec.ofNat 6 Config.klenSat } .ok

/-- `INIT` (40_subkey_derivation.md R84). A bad key length wipes the key, the one state change an error makes
(60_exceptions.md R172). -/
def initEffect (E : Oracle) (r : Regs) : Effect :=
  if r.keyed then raise r .badState
  else if !validKeyLength r.klen then raise { r with key := zero32, klen := 0 } .invalidKeySize
  else
    let ks := derive E (keySlice r)
    { regs := { toBoundary { r with k1 := ks.1, k2 := ks.2 } with keyed := true }
      calls := [encCall E r zero16]
      rsp := .ok }

/-- The meaning of `KEYB b`. -/
def execKeyb (b : Byte) (s : State) : Host.Outcome State Fault Refusal := .next (s.commit (keybEffect b s.regs))

/-- The meaning of `INIT`, with the open oracle `E`. -/
def execInit (s : State) : Host.Outcome State Fault Refusal := .next (s.commit (initEffect Config.E s.regs))

end Sys2Proof.Machine
end

