-- ==== Sys2Proof/Syntax.lean ====
section
/-! DEFINITION. The commands (the engine's instructions), the three fields of a command word, and the outcomes of decoding. -/

namespace Sys2Proof

/-- The eight commands of 30_encoding.md R63, one constructor per row of the opcode table.
The operand of `keyb` and `msgb` is `imm8`, an unsigned byte of which all 256 values are legal (R62), so every term of
this type is a well-formed command. -/
inductive Instr where
  /-- `NOP` (44_control_commands.md R150). -/
  | nop
  /-- `CLR` (44_control_commands.md R151). -/
  | clr
  /-- `KEYB b`: the next key byte (40_subkey_derivation.md R83). -/
  | keyb (b : Byte)
  /-- `INIT` (40_subkey_derivation.md R84). -/
  | init
  /-- `MSGB b`: the next message byte (41_tag_computation.md R105). -/
  | msgb (b : Byte)
  /-- `FINAL` (41_tag_computation.md R106). -/
  | final
  /-- `RDTAG` (44_control_commands.md R152). -/
  | rdtag
  /-- `STAT` (44_control_commands.md R153). -/
  | stat
deriving DecidableEq, Repr

/-- The two formats of 30_encoding.md R61. -/
inductive Format where
  /-- Format Z: no operand, `imm8` must be `0x00`. -/
  | z
  /-- Format B: `imm8` is the operand. -/
  | b
deriving DecidableEq, Repr

/-- The three fields of a command word, before any check (30_encoding.md R60). -/
structure CmdFields where
  /-- `cmd[15:12]` -/
  op : BitVec 4
  /-- `cmd[11:8]`, reserved -/
  rsv : BitVec 4
  /-- `cmd[7:0]` -/
  imm8 : Byte
deriving DecidableEq, Repr

/-- Why a word is illegal: the three classes of 30_encoding.md R64. -/
inductive IllegalReason where
  /-- R64 (b): `rsv` is not `0000`. -/
  | reservedBits
  /-- R64 (a): `op` in `0x8` to `0xF`. -/
  | undefinedOpcode
  /-- R64 (c): a format Z opcode with a nonzero `imm8`. -/
  | strayImmediate
deriving DecidableEq, Repr

/-- What decoding a word gives: a command, or ILLEGAL with the reason (30_encoding.md R65). -/
inductive Decoded where
  | legal (i : Instr)
  | illegal (r : IllegalReason)
deriving DecidableEq, Repr

end Sys2Proof
end

