-- ==== Sys2Proof/Machine/Dispatch.lean ====
section
/-! DEFINITION. One command, by its constructor: every arm is one call of that command's meaning. -/

namespace Sys2Proof.Machine

def exec (i : Instr) (s : State) : Host.Outcome State Fault Refusal :=
  match i with
  | .nop => Sys2Proof.Machine.execNop s
  | .clr => Sys2Proof.Machine.execClr s
  | .keyb b => Sys2Proof.Machine.execKeyb b s
  | .init => Sys2Proof.Machine.execInit s
  | .msgb b => Sys2Proof.Machine.execMsgb b s
  | .final => Sys2Proof.Machine.execFinal s
  | .rdtag => Sys2Proof.Machine.execRdtag s
  | .stat => Sys2Proof.Machine.execStat s

end Sys2Proof.Machine
end

