-- ==== Sys2Proof/WellFormed.lean ====
section
/-! DEFINITION. When the three fields of a command word form a legal command word (30_encoding.md R61, R64).
A term of `Instr` needs no check of its own: its operands are bytes, and R62 makes all 256 of them legal. -/

namespace Sys2Proof

/-- R64 (b): the reserved field must be zero. -/
def CmdFields.reservedClear (f : CmdFields) : Bool := f.rsv == 0

/-- R64 (a): the opcodes `0x8` to `0xF` stand for no command. -/
def CmdFields.opcodeDefined (f : CmdFields) : Bool := decide (f.op.toNat < 8)

/-- R61: opcodes 2 (`KEYB`) and 4 (`MSGB`) are of format B, every other one of format Z. -/
def CmdFields.format (f : CmdFields) : Format := if f.op = 2 ∨ f.op = 4 then .b else .z

/-- R64 (c): a format Z command carries no immediate. -/
def CmdFields.immediateAllowed (f : CmdFields) : Bool := f.format == .b || f.imm8 == 0

/-- The fields form one of the 518 legal words (R63). -/
def CmdFields.wf (f : CmdFields) : Bool := f.reservedClear && f.opcodeDefined && f.immediateAllowed

end Sys2Proof
end

