-- ==== Sys2Proof/Decode.lean ====
section
/-! DEFINITION. Decoding a command word (30_encoding.md R65, total on all 65536 words) and encoding a command (R63, R67). -/

namespace Sys2Proof

/-- The fields of a word (R60): `op = cmd[15:12]`, `rsv = cmd[11:8]`, `imm8 = cmd[7:0]`. -/
def fieldsOf (w : Word16) : CmdFields where
  op := w.extractLsb' 12 4
  rsv := w.extractLsb' 8 4
  imm8 := w.extractLsb' 0 8

/-- The word with the given fields (R60). -/
def wordOf (f : CmdFields) : Word16 := f.op ++ (f.rsv ++ f.imm8)

/-- The decode algorithm of R65, its checks in the order R65 gives them; no state is looked at. -/
def decode (w : Word16) : Decoded :=
  let f := fieldsOf w
  if f.rsv ≠ 0 then .illegal .reservedBits
  else if 8 ≤ f.op.toNat then .illegal .undefinedOpcode
  else if f.op = 2 then .legal (.keyb f.imm8)
  else if f.op = 4 then .legal (.msgb f.imm8)
  else if f.imm8 ≠ 0 then .illegal .strayImmediate
  else if f.op = 0 then .legal .nop
  else if f.op = 1 then .legal .clr
  else if f.op = 3 then .legal .init
  else if f.op = 5 then .legal .final
  else if f.op = 6 then .legal .rdtag
  else .legal .stat

/-- The opcode of each command (R63). -/
def Instr.opcode : Instr → BitVec 4
  | .nop => 0x0
  | .clr => 0x1
  | .keyb _ => 0x2
  | .init => 0x3
  | .msgb _ => 0x4
  | .final => 0x5
  | .rdtag => 0x6
  | .stat => 0x7

/-- The format of each command (R61, R63). -/
def Instr.format : Instr → Format
  | .keyb _ => .b
  | .msgb _ => .b
  | .nop => .z
  | .clr => .z
  | .init => .z
  | .final => .z
  | .rdtag => .z
  | .stat => .z

/-- The `imm8` of each command: the operand of format B, `0x00` for format Z (R61). -/
def Instr.imm8 : Instr → Byte
  | .keyb b => b
  | .msgb b => b
  | .nop => 0
  | .clr => 0
  | .init => 0
  | .final => 0
  | .rdtag => 0
  | .stat => 0

/-- The fields a command is encoded with (R60, R61, R63). -/
def Instr.fields (i : Instr) : CmdFields := { op := i.opcode, rsv := 0, imm8 := i.imm8 }

/-- The word of a command, `match | imm8` of R67. -/
def encode (i : Instr) : Word16 := wordOf i.fields

/-- One row of the opcode table of R63: a word selects the row when `(cmd AND mask) = matchBits`. -/
structure TableRow where
  mnemonic : String
  matchBits : Word16
  mask : Word16
deriving DecidableEq, Repr

/-- A word selects a row (R63). -/
def TableRow.selects (r : TableRow) (w : Word16) : Bool := (w &&& r.mask) == r.matchBits

/-- The opcode table of R63. -/
def opcodeTable : List TableRow :=
  [ ⟨"NOP", 0x0000, 0xFFFF⟩, ⟨"CLR", 0x1000, 0xFFFF⟩, ⟨"KEYB", 0x2000, 0xFF00⟩, ⟨"INIT", 0x3000, 0xFFFF⟩,
    ⟨"MSGB", 0x4000, 0xFF00⟩, ⟨"FINAL", 0x5000, 0xFFFF⟩, ⟨"RDTAG", 0x6000, 0xFFFF⟩, ⟨"STAT", 0x7000, 0xFFFF⟩ ]

/-- A word decodes to a command. -/
def Decoded.isLegal : Decoded → Bool
  | .legal _ => true
  | .illegal _ => false

/-- The command decoding gives, if it gives one. -/
def Decoded.instr? : Decoded → Option Instr
  | .legal i => some i
  | .illegal _ => none

/-- The host's view of the decoder: the low `nbits` bits of `w` as the table numbers them.
A command is exactly one 16-bit word (R60), so a value that does not fit 16 bits is no command. -/
def decodeTableWord (nbits w : Nat) : Option Instr :=
  let v := w % 2 ^ nbits
  if v < 2 ^ 16 then (decode (BitVec.ofNat 16 v)).instr? else none

end Sys2Proof
end

