-- ==== Sys2Proof/Machine/Effects.lean ====
section
/-! DEFINITION. The effect of a command, and of a command word, as a function of the oracle and the registers: the spec's
view of the oracle as an argument (43_cipher_oracle.md R140). `exec` is this at `Config.E`. -/

namespace Sys2Proof.Machine

/-- What a command does to the registers, given the oracle. -/
def effect (E : Oracle) (i : Instr) (r : Regs) : Effect :=
  match i with
  | .nop => nopEffect r
  | .clr => clrEffect r
  | .keyb b => keybEffect b r
  | .init => initEffect E r
  | .msgb b => msgbEffect E b r
  | .final => finalEffect E r
  | .rdtag => rdtagEffect r
  | .stat => statEffect r

/-- What a command word does: an illegal word raises `ERR_ILLEGAL_CMD` before any state is read (60_exceptions.md R173,
R177). -/
def wordEffect (E : Oracle) (w : Word16) (r : Regs) : Effect :=
  match decode w with
  | .legal i => effect E i r
  | .illegal _ => raise r .illegalCmd

/-- The oracle request a command word makes, if it makes one; no command makes two (70_reset_and_hazards.md R211). -/
def wordRequest (w : Word16) (r : Regs) : Option Request := (wordEffect Config.E w r).calls.head?.map (·.req)

end Sys2Proof.Machine
end

