-- ==== Sys2Proof/Machine/Sequencer.lean ====
section
/-! DEFINITION. How the engine takes commands from its port: one at a time, in order, each finished before the next is
looked at (00_scope.md R5, 20_memory.md R48), and what the cues of the outside agents do to it. -/

namespace Sys2Proof.Machine

/-- Decode a word (before any state is looked at, 30_encoding.md R65) and run it. -/
def runWord (w : Word16) (s : State) : Host.Outcome State Fault Refusal :=
  match decode w with
  | .legal i => exec i s
  | .illegal _ => .next (s.commit (raise s.regs .illegalCmd))

/-- Finish the command in progress if there is one, else accept the next word and run it, else stay idle with all state
kept (60_exceptions.md R185). -/
def advance (s : State) : Host.Outcome State Fault Refusal :=
  match s.inFlight with
  | some f => runWord f.word { s with inFlight := none }
  | none =>
    match s.cmds with
    | [] => .next s
    | w :: ws => runWord w { s with cmds := ws }

/-- Accept the next word, if the engine is free, and leave it in progress; its oracle request, if it makes one, is
outstanding (43_cipher_oracle.md R141, R145). A command already in progress stays so. -/
def acceptAndHold (s : State) : State :=
  match s.inFlight with
  | some _ => s
  | none =>
    match s.cmds with
    | [] => s
    | w :: ws => { s with cmds := ws, inFlight := some { word := w, req := wordRequest w s.regs } }

/-- `Cue.go`: a response still offered is taken, then a command runs and its response is taken. -/
def stepGo (s : State) : Host.Outcome State Fault Refusal := mapNext State.takeResponse (advance s.takeResponse)

/-- `Cue.hold`: a response still offered is taken, and a command is or stays in progress. -/
def stepHold (s : State) : State := acceptAndHold s.takeResponse

/-- `Cue.rspStall`: with a response still offered the engine stalls; else a command runs and its response stays offered
(70_reset_and_hazards.md R209). -/
def stepRspStall (s : State) : Host.Outcome State Fault Refusal :=
  match s.rspPort with
  | some _ => .next s
  | none => advance s

/-- One step under one cue. A late answer is discarded without effect (70_reset_and_hazards.md R203). -/
def stepCue (c : Cue) (s : State) : Host.Outcome State Fault Refusal :=
  match c with
  | .go => stepGo s
  | .hold => .next (stepHold s)
  | .rspStall => stepRspStall s
  | .lateAnswer _ => .next s
  | .rst => .next s.afterReset

/-- The cue of the coming step and the state with it taken off the schedule; an empty schedule means `go`. -/
def nextCue (s : State) : Cue × State :=
  match s.cues with
  | [] => (.go, s)
  | c :: cs => (c, { s with cues := cs })

/-- Put a word where the engine takes its next command from: first on the command port, with no command in progress in
front of it and the coming step a `go`. -/
def presentFirst (s : State) (w : Word16) : State :=
  { s with cmds := w :: s.cmds, cues := .go :: s.cues, inFlight := none }

end Sys2Proof.Machine
end

