-- ==== Sys2Proof/Machine/Step.lean ====
section
/-! DEFINITION. One step of the machine, and the host's way to place the next command. -/

namespace Sys2Proof.Machine

/-- One step: the outside agents' cue, then what the engine does under it. -/
def step (s : State) : Host.Outcome State Fault Refusal := stepCue (nextCue s).1 (nextCue s).2

/-- `s` with the command word `w` (its low `nbits` bits) presented so that the very next step accepts and runs it. -/
def State.withFetchWord (s : State) (nbits w : Nat) : State := presentFirst s (BitVec.ofNat 16 (w % 2 ^ nbits))

end Sys2Proof.Machine
end

