-- ==== Sys2Proof/Machine/Asm.lean ====
section
/-! DEFINITION. The textual form of a program and its pseudo-instructions (30_encoding.md R67, R68): an assembler from
characters to command words, and a printer of one command. -/

namespace Sys2Proof.Machine

/-- `KEY <hex>`: one `KEYB` per byte, in order (R68). -/
def keyCommands (bytes : List Byte) : List Instr := bytes.map .keyb

/-- `MSG <hex>`: one `MSGB` per byte, in order; nothing for the empty string (R68). -/
def msgCommands (bytes : List Byte) : List Instr := bytes.map .msgb

/-- `CONSTRUCT <hex>`: `CLR`, then `KEY <hex>`, then `INIT` (R68), the source's `construct(key)`. -/
def constructCommands (key : List Byte) : List Instr := .clr :: (keyCommands key ++ [.init])

/-- `CALCULATE <hex>`: `MSG <hex>`, then `FINAL` (R68), the source's `calculate(message)`. -/
def calculateCommands (message : List Byte) : List Instr := msgCommands message ++ [.final]

/-- The mnemonic of a command, as the opcode table spells it (R63). -/
def mnemonic : Instr → String
  | .nop => "NOP"
  | .clr => "CLR"
  | .keyb _ => "KEYB"
  | .init => "INIT"
  | .msgb _ => "MSGB"
  | .final => "FINAL"
  | .rdtag => "RDTAG"
  | .stat => "STAT"

/-- The value of a hex digit; both cases of the letters are read (log entry 8). -/
def hexDigit? (c : Char) : Option (BitVec 4) :=
  let n := c.toNat
  if 48 ≤ n ∧ n ≤ 57 then some (BitVec.ofNat 4 (n - 48))
  else if 97 ≤ n ∧ n ≤ 102 then some (BitVec.ofNat 4 (n - 87))
  else if 65 ≤ n ∧ n ≤ 70 then some (BitVec.ofNat 4 (n - 55))
  else none

/-- The lower-case hex digit of a value. -/
def hexDigit (d : BitVec 4) : Char :=
  if d.toNat < 10 then Char.ofNat (48 + d.toNat) else Char.ofNat (87 + d.toNat)

/-- A byte string written as an even number (possibly zero) of hex digits, first byte first (R68). -/
def hexBytes? : List Char → Option (List Byte)
  | [] => some []
  | [_] => none
  | a :: b :: rest =>
    match hexDigit? a, hexDigit? b, hexBytes? rest with
    | some h, some l, some bytes => some ((h ++ l) :: bytes)
    | _, _, _ => none

/-- The two hex digits of a byte. -/
def hexOfByte (b : Byte) : List Char := [hexDigit (b.extractLsb' 4 4), hexDigit (b.extractLsb' 0 4)]

/-- The operand of a format B command: `0x` and two hex digits (R67). -/
def byteOperand? : List Char → Option Byte
  | '0' :: 'x' :: digits =>
    match hexBytes? digits with
    | some [b] => some b
    | _ => none
  | _ => none

/-- The words of a line, split at blanks. -/
def tokensFrom : List Char → List Char → List (List Char)
  | cur, [] => if cur.isEmpty then [] else [cur.reverse]
  | cur, c :: cs =>
    if c = ' ' ∨ c = '\t' ∨ c = '\r' then
      if cur.isEmpty then tokensFrom [] cs else cur.reverse :: tokensFrom [] cs
    else tokensFrom (c :: cur) cs

/-- The words of a line, less its comment: a `;` starts a comment that runs to the end of the line (R67). -/
def lineTokens (line : List Char) : List (List Char) := tokensFrom [] (line.takeWhile (· ≠ ';'))

/-- A command of format Z, the bare mnemonic (R67). -/
def bareCommand? (t : List Char) : Option Instr :=
  [Instr.nop, .clr, .init, .final, .rdtag, .stat].find? fun i => (mnemonic i).toList = t

/-- A pseudo-instruction applied to a byte string (R68). -/
def pseudo? (t : List Char) (bytes : List Byte) : Option (List Instr) :=
  if t = "KEY".toList then some (keyCommands bytes)
  else if t = "MSG".toList then some (msgCommands bytes)
  else if t = "CONSTRUCT".toList then some (constructCommands bytes)
  else if t = "CALCULATE".toList then some (calculateCommands bytes)
  else none

/-- The commands of one line: none for a blank line; a mnemonic is upper case (R67, R68). -/
def parseLine? (line : List Char) : Option (List Instr) :=
  match lineTokens line with
  | [] => some []
  | [t] =>
    match bareCommand? t with
    | some i => some [i]
    | none => pseudo? t []
  | [t, a] =>
    if t = "KEYB".toList then (byteOperand? a).map fun b => [.keyb b]
    else if t = "MSGB".toList then (byteOperand? a).map fun b => [.msgb b]
    else (hexBytes? a).bind (pseudo? t)
  | _ => none

/-- The lines of a text. -/
def linesFrom : List Char → List Char → List (List Char)
  | cur, [] => [cur.reverse]
  | cur, c :: cs => if c = '\n' then cur.reverse :: linesFrom [] cs else linesFrom (c :: cur) cs

/-- The commands of a list of lines, if every line can be read. -/
def parseLines? : List (List Char) → Option (List Instr)
  | [] => some []
  | l :: ls =>
    match parseLine? l, parseLines? ls with
    | some a, some b => some (a ++ b)
    | _, _ => none

/-- The assembler: the command words of a program text (R67, R68). -/
def assemble? (text : List Char) : Option (List Word16) := (parseLines? (linesFrom [] text)).map (·.map encode)

/-- One command in the assembler's syntax (R67). -/
def printCommand (i : Instr) : List Char :=
  (mnemonic i).toList ++ (match i.format with | .z => [] | .b => ' ' :: '0' :: 'x' :: hexOfByte i.imm8)

end Sys2Proof.Machine
end

