-- ==== Sys2Proof/Machine/Cmac.lean ====
section
/-! DEFINITION. The function `CMAC` of 41_tag_computation.md, as the source's five steps give it (R100 to R102).
The machine does not call it: it is what the commands are claimed to compute (R107; where they differ, R100 wins,
90_conflicts.md C6). -/

namespace Sys2Proof.Machine

/-- `m[a .. b)` (00_scope.md R7). -/
def slice (m : List Byte) (a b : Nat) : List Byte := (m.drop a).take (b - a)

/-- The block count `n` (R101): `ceil(len / 16)`, and 1 for the empty message. -/
def blockCount (m : List Byte) : Nat := if m.length = 0 then 1 else (m.length + 15) / 16

/-- Block `i` of a message, counting from 0: `m[16*i .. 16*(i+1))` (R100 counts from 1). -/
def messageBlock (m : List Byte) (i : Nat) : Block := blockOf (slice m (16 * i) (16 * (i + 1)))

/-- The chaining value `X_i` after `i` blocks (R100 steps 2 and 3): `X_0 = ZERO16`,
`X_(i+1) = E(key, XOR16(X_i, block_(i+1)))`. -/
def chain (E : Oracle) (key m : List Byte) : Nat → Block
  | 0 => zero16
  | i + 1 => E key (xor16 (chain E key m i) (messageBlock m i))

/-- The last block with its subkey XORed in (R100 step 4, R102): told by the length alone. -/
def lastBlockOf (k1 k2 : Block) (m : List Byte) : Block :=
  let l := m.length
  if 0 < l ∧ l % 16 = 0 then xor16 (blockOf (slice m (l - 16) l)) k1
  else
    let start := 16 * (blockCount m - 1)
    xor16 (blockOf (slice m start l ++ padByte :: List.replicate (15 - (l - start)) 0)) k2

/-- The plaintext of the last oracle call, `XOR16(X_(n-1), last)` (R100 step 5). -/
def lastPlaintext (E : Oracle) (key : List Byte) (k1 k2 : Block) (m : List Byte) : Block :=
  xor16 (chain E key m (blockCount m - 1)) (lastBlockOf k1 k2 m)

/-- `CMAC(key, K1, K2, m)` (R100). -/
def cmac (E : Oracle) (key : List Byte) (k1 k2 : Block) (m : List Byte) : Block :=
  E key (lastPlaintext E key k1 k2 m)

/-- `CMAC(key, m)`, with the subkeys of `DERIVE(key)` (R100). -/
def cmacOf (E : Oracle) (key m : List Byte) : Block :=
  cmac E key (derive E key).1 (derive E key).2 m

/-- The plaintexts of the `n` oracle requests of one message, in order (41_tag_computation.md R108). -/
def messagePlaintexts (E : Oracle) (key : List Byte) (k1 k2 : Block) (m : List Byte) : List Block :=
  ((List.range (blockCount m - 1)).map fun i => xor16 (chain E key m i) (messageBlock m i))
    ++ [lastPlaintext E key k1 k2 m]

end Sys2Proof.Machine
end

