-- ==== Sys2Proof/Machine/Ports.lean ====
section
/-! DEFINITION. The words on the engine's ports (20_memory.md R41): the response word's code and data
(30_encoding.md R66) and the oracle request's buses (43_cipher_oracle.md R141). -/

namespace Sys2Proof.Machine

/-- The 4-bit code of an error (60_exceptions.md R171). -/
def ErrorCode.code : ErrorCode → BitVec 4
  | .invalidKeySize => 0x8
  | .illegalCmd => 0x9
  | .badState => 0xA
  | .noTag => 0xB

/-- `rsp_code[3:0]` (30_encoding.md R66). -/
def Response.code : Response → BitVec 4
  | .ok => 0x0
  | .tag _ => 0x1
  | .status _ => 0x2
  | .error e => e.code

/-- The 16 data bytes of a response (30_encoding.md R66): the tag; the status in the last two bytes, high byte first;
zero for `OK` and for every error. -/
def Response.data : Response → Block
  | .ok => zero16
  | .tag t => t
  | .status s => (zero16.set 14 (s.extractLsb' 8 8)).set 15 (s.extractLsb' 0 8)
  | .error _ => zero16

/-- `rsp_data[127:0]`, `D[0]` on bits [127:120] (30_encoding.md R66, 20_memory.md R44). -/
def Response.dataBus (p : Response) : BitVec 128 := blockBus p.data

/-- The response is an error. -/
def Response.isError : Response → Bool
  | .error _ => true
  | .ok => false
  | .tag _ => false
  | .status _ => false

/-- The tag a response carries, if it carries one. -/
def Response.tag? : Response → Option Block
  | .tag t => some t
  | .ok => none
  | .status _ => none
  | .error _ => none

/-- `enc_klen[5:0]` (43_cipher_oracle.md R141). -/
def Request.encKlen (q : Request) : BitVec 6 := q.klen

/-- `enc_key[255:0]`, `KEY[0]` on bits [255:248] (43_cipher_oracle.md R141). -/
def Request.encKey (q : Request) : BitVec 256 := keyBus q.key

/-- `enc_pt[127:0]`, byte 0 on bits [127:120] (43_cipher_oracle.md R141). -/
def Request.encPt (q : Request) : BitVec 128 := blockBus q.pt

/-- `enc_ct[127:0]` of an answered call, byte 0 on bits [127:120] (43_cipher_oracle.md R141). -/
def OracleCall.encCt (c : OracleCall) : Option (BitVec 128) := c.ct.map blockBus

end Sys2Proof.Machine
end

