-- ==== Sys2Proof/Machine/TestOracles.lean ====
section
/-! DEFINITION. What the spec assumes of an oracle beyond being a function, and the two test oracles it defines for
evidence (43_cipher_oracle.md R142, R147). The machine runs with `Config.E` only. -/

namespace Sys2Proof.Machine

/-- P-PERM (R142): for every valid key, encryption is a permutation of the blocks. -/
def IsPermOracle (E : Oracle) : Prop := ∀ key, key.length ∈ Config.keyLengths → Function.Bijective (E key)

/-- `E_ID(key, p) = p` (R147). -/
def eId : Oracle := fun _ p => p

/-- `fold(key)`: byte `i` is the XOR of all `key[j]` with `j mod 16 = i` (R147). -/
def foldKey (key : List Byte) : Block :=
  Vector.ofFn fun i => ((List.range key.length).filter (· % 16 = i.val)).foldl (fun acc j => acc ^^^ key.getD j 0) 0

/-- `E_TOY1(key, p)`: byte `i` is `((p[(i+1) mod 16] XOR fold(key)[i]) + i) mod 256` (R147). -/
def eToy1 : Oracle := fun key p =>
  let f := foldKey key
  Vector.ofFn fun i => (p[(i.val + 1) % 16]'(Nat.mod_lt _ (by decide)) ^^^ f[i]) + BitVec.ofNat 8 i.val

end Sys2Proof.Machine
end

