-- ==== Sys2Proof/Safety.lean ====
section
/-! DEFINITION. What claims about the machine are stated in: the invariants of 10_state.md section 6, message boundaries and
open messages, and what two states that differ only in data have in common. -/

namespace Sys2Proof.Machine

/-- The machine does not stop in this step: it answers a next state, neither a fault nor a refusal. -/
def Goes (s : State) : Prop := ∃ t, step s = .next t

/-- Nothing but commands at work: no command in progress, no response waiting, every cue a `go`. -/
structure Quiet (s : State) : Prop where
  noCommandInProgress : s.inFlight = none
  noResponseWaiting : s.rspPort = none
  onlyGo : s.cues = []

/-- The invariants R24 to R28 of 10_state.md section 6, and `TAGV = 1` implies `KEYED = 1` (R18). -/
structure RegsInv (E : Oracle) (r : Regs) : Prop where
  /-- R24 -/
  klenRange : r.klen.toNat ≤ 33
  /-- R24 -/
  keyTail : ∀ i : Fin 32, min r.klen.toNat 32 ≤ i.val → r.key[i] = 0
  /-- R25 -/
  keyedLength : r.keyed = true → r.klen.toNat ∈ Config.keyLengths
  /-- R25 -/
  keyedSubkeys : r.keyed = true → (r.k1, r.k2) = derive E (keySlice r)
  /-- R26 -/
  unkeyed : r.keyed = false →
    r.k1 = zero16 ∧ r.k2 = zero16 ∧ r.x = zero16 ∧ r.buf = zero16 ∧ r.tag = zero16 ∧ r.cnt = 0 ∧ r.tagv = false
  /-- R27 -/
  cntRange : r.cnt.toNat ≤ 16
  /-- R27 -/
  bufTail : ∀ i : Fin 16, r.cnt.toNat ≤ i.val → r.buf[i] = 0
  /-- R28 -/
  boundaryX : r.cnt = 0 → r.x = zero16

/-- A request has the form the oracle port's contract gives it: a legal key length, and zero key bytes from `KLEN` on
(43_cipher_oracle.md R140, R141). -/
structure ProperRequest (q : Request) : Prop where
  legalLength : q.klen.toNat ∈ Config.keyLengths
  keyTail : ∀ i : Fin 32, q.klen.toNat ≤ i.val → q.key[i] = 0

/-- A call is a proper request, answered, if at all, by `E` (43_cipher_oracle.md R141, R142 P-FUN). -/
structure ProperCall (E : Oracle) (c : OracleCall) : Prop where
  request : ProperRequest c.req
  answered : ∀ ct, c.ct = some ct → ct = answer E c.req

/-- What holds at the ports between two steps. -/
structure PortsInv (s : State) : Prop where
  /-- The outstanding request is the one the command in progress makes. -/
  outstanding : ∀ f, s.inFlight = some f → f.req = wordRequest f.word s.regs
  /-- A command is finished, its response taken, before the next is accepted (20_memory.md R48). -/
  oneAtATime : s.rspPort.isSome = true → s.inFlight = none
  /-- Every call on record is proper. -/
  calls : ∀ c ∈ s.calls, ProperCall Config.E c

/-- A message boundary (00_scope.md glossary; 10_state.md R17, R23): `X`, `BUF` and `CNT` zero. -/
structure AtBoundary (r : Regs) : Prop where
  x : r.x = zero16
  buf : r.buf = zero16
  cnt : r.cnt = 0

/-- The streaming relation of 10_state.md R29: the registers hold the open message `m`. -/
structure Streams (E : Oracle) (m : List Byte) (r : Regs) : Prop where
  empty : m.length = 0 → AtBoundary r
  count : 0 < m.length → r.cnt.toNat = m.length - 16 * ((m.length + 15) / 16 - 1)
  buffer : 0 < m.length → r.buf = blockOf (m.drop (16 * ((m.length + 15) / 16 - 1)))
  chained : 0 < m.length → r.x = chain E (keySlice r) m ((m.length + 15) / 16 - 1)

/-- The open message after a command, given the one before it and whether the engine is keyed: an accepted `MSGB` adds
its byte; an accepted `FINAL`, an `INIT` on an unkeyed engine and `CLR` leave a message boundary (00_scope.md glossary). -/
def openAfter (keyed : Bool) (m : List Byte) : Instr → List Byte
  | .nop => m
  | .clr => []
  | .keyb _ => m
  | .init => if keyed then m else []
  | .msgb b => if keyed then m ++ [b] else m
  | .final => if keyed then [] else m
  | .rdtag => m
  | .stat => m

/-- The registers hold the open message `m` (R29), which is empty while the engine is unkeyed. -/
structure HoldsMessage (E : Oracle) (m : List Byte) (r : Regs) : Prop where
  streams : Streams E m r
  unkeyed : r.keyed = false → m = []

/-- The machine's invariant: R24 to R28, R29 for some open message, and what holds at the ports. -/
structure State.Inv (s : State) : Prop where
  regs : RegsInv Config.E s.regs
  message : ∃ m, HoldsMessage Config.E m s.regs
  ports : PortsInv s

/-- The word the engine runs next: the one in progress, else the first one presented. -/
def nextWord (s : State) : Option Word16 :=
  match s.inFlight with
  | some f => some f.word
  | none => s.cmds.head?

/-- The message byte a command brings, if it is a `MSGB`. -/
def messageByte? : Instr → Option Byte
  | .msgb b => some b
  | .nop => none
  | .clr => none
  | .keyb _ => none
  | .init => none
  | .final => none
  | .rdtag => none
  | .stat => none

/-- The bytes of the `MSGB` words among a list of command words, in order. -/
def messageOf (ws : List Word16) : List Byte := ws.filterMap fun w => (decode w).instr?.bind messageByte?

/-- Two words that differ at most in their immediate byte: both illegal, or both legal with the same opcode. -/
def SameKind (w w' : Word16) : Prop :=
  (decode w).instr?.map Instr.opcode = (decode w').instr?.map Instr.opcode

/-- Commands in progress that differ at most in data bytes. -/
def SameProgress : Option InFlight → Option InFlight → Prop
  | none, none => True
  | some f, some g => SameKind f.word g.word ∧ f.req.isSome = g.req.isSome
  | none, some _ => False
  | some _, none => False

/-- Two states that differ at most in data bytes, and have shown the outside the same sequence of response codes and of
oracle requests (42_block_utilities.md R125 (c)). -/
structure SameButData (s t : State) : Prop where
  shape : s.regs.shape = t.regs.shape
  cmds : List.Forall₂ SameKind s.cmds t.cmds
  cues : s.cues = t.cues
  inFlight : SameProgress s.inFlight t.inFlight
  rspPort : s.rspPort.map Response.code = t.rspPort.map Response.code
  rsps : s.rsps.map Response.code = t.rsps.map Response.code
  calls : s.calls.map (·.ct.isSome) = t.calls.map (·.ct.isSome)

end Sys2Proof.Machine
end

