-- ==== Sys2Proof/Certificates/Slice0/Obligations.lean ====
section
/-! DEFINITION. The statements for the provers, file by file of the spec. Each docstring names the rules it rests on. -/

open Sys2Proof Sys2Proof.Machine

/-! Encoding (30_encoding.md). -/

/-- R63, R65: decoding and encoding agree in both directions: every command's word decodes to that command with its
operand at every value, and a word that decodes to a command is that command's only word. -/
def Obligations.DecodeEncodeAgree : Prop :=
  ∀ (w : Word16) (i : Instr), decode w = .legal i ↔ w = encode i

/-- R63: which words select which command, by mask and match, and how many of the 65536 words are legal. -/
def Obligations.OpcodeMapByMaskAndMatch : Prop :=
  (∀ w : Word16,
    (decode w = .legal .nop ↔ w &&& 0xFFFF = 0x0000) ∧
    (decode w = .legal .clr ↔ w &&& 0xFFFF = 0x1000) ∧
    (∀ b : Byte, decode w = .legal (.keyb b) ↔ w &&& 0xFF00 = 0x2000 ∧ b = w.setWidth 8) ∧
    (decode w = .legal .init ↔ w &&& 0xFFFF = 0x3000) ∧
    (∀ b : Byte, decode w = .legal (.msgb b) ↔ w &&& 0xFF00 = 0x4000 ∧ b = w.setWidth 8) ∧
    (decode w = .legal .final ↔ w &&& 0xFFFF = 0x5000) ∧
    (decode w = .legal .rdtag ↔ w &&& 0xFFFF = 0x6000) ∧
    (decode w = .legal .stat ↔ w &&& 0xFFFF = 0x7000)) ∧
  ∃ words : List Word16, words.Nodup ∧ words.length = 518 ∧ ∀ w, w ∈ words ↔ (decode w).isLegal = true

/-- R64, R173: the illegal words are exactly the three classes, and an illegal word is answered with `ERR_ILLEGAL_CMD`
in every state, with no register change and no oracle call. -/
def Obligations.IllegalWordsAreRefused : Prop :=
  ∀ w : Word16,
    ((decode w).isLegal = false ↔
      8 ≤ (w.extractLsb' 12 4).toNat ∨ w.extractLsb' 8 4 ≠ 0 ∨
        ((w.extractLsb' 12 4).toNat ∈ [0x0, 0x1, 0x3, 0x5, 0x6, 0x7] ∧ w.extractLsb' 0 8 ≠ 0)) ∧
    ((decode w).isLegal = false →
      ∀ s : State, runWord w s = .next { s with rspPort := some (.error .illegalCmd) })

/-- R60: a word is exactly its three fields `op`, `rsv`, `imm8`. -/
def Obligations.WordIsItsFields : Prop :=
  (∀ w : Word16, wordOf (fieldsOf w) = w) ∧ (∀ f : CmdFields, fieldsOf (wordOf f) = f) ∧
  (∀ f : CmdFields, (wordOf f).toNat = f.op.toNat * 4096 + f.rsv.toNat * 256 + f.imm8.toNat)

/-- 95_test_vectors.md V10: words written out from the encodings decode to the commands they stand for, and the listed
illegal words do not decode. -/
def Obligations.ListedWordsDecode : Prop :=
  decode 0x0000 = .legal .nop ∧ decode 0x1000 = .legal .clr ∧ decode 0x202b = .legal (.keyb 0x2b) ∧
  decode 0x20ff = .legal (.keyb 0xff) ∧ decode 0x3000 = .legal .init ∧ decode 0x4080 = .legal (.msgb 0x80) ∧
  decode 0x5000 = .legal .final ∧ decode 0x6000 = .legal .rdtag ∧ decode 0x7000 = .legal .stat ∧
  decode 0x0001 = .illegal .strayImmediate ∧ decode 0x2f2b = .illegal .reservedBits ∧
  decode 0xf0f0 = .illegal .undefinedOpcode ∧ decode 0xa5a5 = .illegal .reservedBits

/-- R66: the code and the data bytes of every response; bit 3 of the code is 1 exactly for errors. -/
def Obligations.ResponseWords : Prop :=
  (Response.ok.code = 0x0 ∧ Response.ok.data = Vector.replicate 16 0) ∧
  (∀ t, (Response.tag t).code = 0x1 ∧ (Response.tag t).data = t) ∧
  (∀ v, (Response.status v).code = 0x2 ∧
    (∀ (i : Nat) (h : i < 14), (Response.status v).data[i] = 0) ∧
    (Response.status v).data[14] = v.extractLsb' 8 8 ∧ (Response.status v).data[15] = v.extractLsb' 0 8) ∧
  ((Response.error .invalidKeySize).code = 0x8 ∧ (Response.error .illegalCmd).code = 0x9 ∧
    (Response.error .badState).code = 0xA ∧ (Response.error .noTag).code = 0xB) ∧
  (∀ e, (Response.error e).data = Vector.replicate 16 0) ∧
  (∀ p : Response, p.code.getLsbD 3 = p.isError)

/-- R67: a command printed in the assembler's syntax is read back, and assembles to its word. That its digits are
lower-case is the model's choice (log entry 8). -/
def Obligations.AssemblerReadsPrintedCommands : Prop :=
  ∀ i : Instr, parseLine? (printCommand i) = some [i] ∧ assemble? (printCommand i) = some [encode i]

/-- R68: each pseudo-instruction on a byte string of any length, written in hex, expands as its row says. That the
digits are lower-case is the model's choice (log entry 8). -/
def Obligations.PseudoInstructionsExpand : Prop :=
  ∀ bytes : List Byte,
    parseLine? ("KEY ".toList ++ bytes.flatMap hexOfByte) = some (bytes.map .keyb) ∧
    parseLine? ("MSG ".toList ++ bytes.flatMap hexOfByte) = some (bytes.map .msgb) ∧
    parseLine? ("CONSTRUCT ".toList ++ bytes.flatMap hexOfByte) = some (.clr :: (bytes.map .keyb ++ [.init])) ∧
    parseLine? ("CALCULATE ".toList ++ bytes.flatMap hexOfByte) = some (bytes.map .msgb ++ [.final])

/-! State and reset (10_state.md, 70_reset_and_hazards.md). -/

/-- R30, R201: the reset state. -/
def Obligations.ResetState : Prop :=
  State.reset.regs.key = Vector.replicate 32 0 ∧ State.reset.regs.klen = 0 ∧ State.reset.regs.keyed = false ∧
  State.reset.regs.k1 = Vector.replicate 16 0 ∧ State.reset.regs.k2 = Vector.replicate 16 0 ∧
  State.reset.regs.x = Vector.replicate 16 0 ∧ State.reset.regs.buf = Vector.replicate 16 0 ∧
  State.reset.regs.cnt = 0 ∧ State.reset.regs.tag = Vector.replicate 16 0 ∧ State.reset.regs.tagv = false ∧
  State.reset.regs.status = 0x0000 ∧
  State.reset.inFlight = none ∧ State.reset.rspPort = none ∧ State.reset.calls = []

/-- R20: the layout of `STATUS`, field by field, the reserved bits zero. -/
def Obligations.StatusLayout : Prop :=
  ∀ r : Regs,
    r.status.getLsbD 0 = r.keyed ∧ r.status.getLsbD 1 = r.tagv ∧ r.status.getLsbD 2 = false ∧
    r.status.extractLsb' 3 5 = r.cnt ∧ r.status.extractLsb' 8 6 = r.klen ∧ r.status.extractLsb' 14 2 = 0 ∧
    r.status.toNat = r.klen.toNat * 256 + r.cnt.toNat * 8 + r.tagv.toNat * 2 + r.keyed.toNat

/-- R10, the columns "written by": each register changes only under the commands listed for it, and a command touches
nothing of the ports but the response it offers and the oracle calls it appends. -/
def Obligations.RegistersWrittenBy : Prop :=
  ∀ (i : Instr) (s : State), ∃ t new p,
    exec i s = .next t ∧ t = { s with regs := t.regs, calls := s.calls ++ new, rspPort := some p } ∧
    (t.regs.key ≠ s.regs.key ∨ t.regs.klen ≠ s.regs.klen → (∃ b, i = .keyb b) ∨ i = .init ∨ i = .clr) ∧
    (t.regs.keyed ≠ s.regs.keyed ∨ t.regs.k1 ≠ s.regs.k1 ∨ t.regs.k2 ≠ s.regs.k2 → i = .init ∨ i = .clr) ∧
    (t.regs.x ≠ s.regs.x ∨ t.regs.buf ≠ s.regs.buf ∨ t.regs.cnt ≠ s.regs.cnt →
      i = .init ∨ (∃ b, i = .msgb b) ∨ i = .final ∨ i = .clr) ∧
    (t.regs.tag ≠ s.regs.tag ∨ t.regs.tagv ≠ s.regs.tagv → i = .final ∨ i = .clr)

/-- R13: what a step can do to `KEYED`. The schedule of cues is the model's choice (log entry 3). -/
def Obligations.KeyedTransitions : Prop :=
  ∀ s : State, ∃ t, step s = .next t ∧
    (s.regs.keyed = false → t.regs.keyed = true →
      nextWord s = some (encode .init) ∧ s.regs.klen.toNat ∈ [16, 24, 32]) ∧
    (s.regs.keyed = true → t.regs.keyed = false →
      s.cues.head? = some .rst ∨ nextWord s = some (encode .clr))

/-- R11, R86: on a keyed engine no step but a `CLR` or a reset changes the key, its length, the subkeys or `KEYED`.
The schedule of cues is the model's choice (log entry 3). -/
def Obligations.KeyMaterialFixedWhileKeyed : Prop :=
  ∀ s : State, s.regs.keyed = true → s.cues.head? ≠ some .rst → nextWord s ≠ some (encode .clr) →
    ∃ t, step s = .next t ∧ t.regs.key = s.regs.key ∧ t.regs.klen = s.regs.klen ∧ t.regs.k1 = s.regs.k1 ∧
      t.regs.k2 = s.regs.k2 ∧ t.regs.keyed = true

/-- R18: no step but one that runs `FINAL` or `CLR`, or a reset, changes `TAG` or `TAGV`.
The schedule of cues is the model's choice (log entry 3). -/
def Obligations.TagKeptUntilFinalOrClear : Prop :=
  ∀ s : State, s.cues.head? ≠ some .rst → nextWord s ≠ some (encode .clr) → nextWord s ≠ some (encode .final) →
    ∃ t, step s = .next t ∧ t.regs.tag = s.regs.tag ∧ t.regs.tagv = s.regs.tagv

/-- R24 to R28: the invariant holds in the reset state. -/
def Obligations.ResetMeetsInvariant : Prop := State.reset.Inv

/-- R24 to R29: every step keeps the invariant, from every state that meets it. What the invariant says of the ports rests
on the model's choices in log entries 3 and 5. -/
def Obligations.StepKeepsInvariant : Prop :=
  ∀ s t : State, s.Inv → step s = .next t → t.Inv

/-- R29: the registers hold the open message, command by command. -/
def Obligations.OpenMessageIsHeld : Prop :=
  ∀ (i : Instr) (s : State) (m : List Byte), HoldsMessage Config.E m s.regs →
    ∃ t, exec i s = .next t ∧ HoldsMessage Config.E (openAfter s.regs.keyed m i) t.regs

/-- R203: a reset abandons the command in progress: no response, no register write survives, its request stays
unanswered; responses handed over stand, words not accepted stay so, a late answer has no effect; and while the oracle
stays silent nothing but a reset ends the wait. The schedule of cues is the model's choice (log entry 3); so are that the
abandoned request is on record (log entry 5), that the words stay presented (log entry 7) and that a late answer is taken in
any state (log entry 9). -/
def Obligations.ResetAbandonsCommand : Prop :=
  ∀ (s : State) (cs : List Cue),
    (s.cues = .rst :: cs →
      step s = .next
        { regs := State.reset.regs, cmds := s.cmds, cues := cs, inFlight := none, rspPort := none, rsps := s.rsps
          calls := s.calls ++ (match s.inFlight with
            | some ⟨_, some q⟩ => [⟨q, none⟩]
            | some ⟨_, none⟩ => []
            | none => []) }) ∧
    (∀ ct, s.cues = .lateAnswer ct :: cs → step s = .next { s with cues := cs }) ∧
    (∀ f, s.inFlight = some f → s.cues = .hold :: cs →
      step s = .next { s with cues := cs, rspPort := none, rsps := s.rsps ++ s.rspPort.toList })

/-- R145: while the oracle does not answer, for however many steps, the command stays in progress: no register changes,
no response is given, no further word is accepted, and there is no timeout. The schedule of cues is the model's choice (log
entry 3). -/
def Obligations.OracleSilenceHasNoTimeout : Prop :=
  ∀ (n : Nat) (s : State) (w : Word16) (ws : List Word16) (cs : List Cue),
    s.inFlight = none → s.rspPort = none → s.cmds = w :: ws → s.cues = List.replicate (n + 1) .hold ++ cs →
      core.run (n + 1) s =
        .next { s with cmds := ws, cues := cs, inFlight := some { word := w, req := wordRequest w s.regs } }

/-- R48, R210: however long a command takes, what it does is the same as when it is finished at once.
The schedule of cues is the model's choice (log entry 3). -/
def Obligations.DelayChangesNothing : Prop :=
  ∀ (n : Nat) (s : State) (cs : List Cue), s.inFlight = none → s.rspPort = none → s.cmds ≠ [] →
    s.cues = List.replicate n .hold ++ .go :: cs → core.run (n + 1) s = step { s with cues := .go :: cs }

/-! Ports and sequencing (20_memory.md, 44_control_commands.md). -/

/-- R48, R65: a step decodes the next word and runs it: its effect is that of `exec`, and its response is then taken
(under `rspStall` it stays offered); likewise for a command that was in progress, and for an illegal word, which changes
nothing but that it is answered. What a step adds around `exec` is the model's choice (log entry 3). -/
def Obligations.StepRunsDecodedCommand : Prop :=
  (∀ (s : State) (i : Instr),
    (∀ ws, s.inFlight = none → s.cmds = encode i :: ws →
      (s.cues = [] → step s = mapNext State.takeResponse (exec i { s.takeResponse with cmds := ws })) ∧
      (∀ cs, s.cues = .go :: cs →
        step s = mapNext State.takeResponse (exec i { s.takeResponse with cmds := ws, cues := cs })) ∧
      (∀ cs, s.cues = .rspStall :: cs → s.rspPort = none →
        step s = exec i { s with cmds := ws, cues := cs })) ∧
    (∀ q, s.inFlight = some { word := encode i, req := q } →
      (s.cues = [] → step s = mapNext State.takeResponse (exec i { s.takeResponse with inFlight := none })) ∧
      (∀ cs, s.cues = .go :: cs →
        step s = mapNext State.takeResponse (exec i { s.takeResponse with inFlight := none, cues := cs })))) ∧
  ∀ (s : State) (w : Word16) (ws : List Word16), (decode w).isLegal = false → Quiet s → s.cmds = w :: ws →
    step s = .next { s with cmds := ws, rsps := s.rsps ++ [.error .illegalCmd] }

/-- R64, R154: the machine never stops: every word in every state has a defined outcome, and no state is terminal. -/
def Obligations.MachineNeverStops : Prop := ∀ s : State, Goes s

/-- R185: with no command in progress and none presented, no response waiting, nothing changes but the
schedule of cues, which is the model's choice (log entry 3). -/
def Obligations.IdleKeepsAllState : Prop :=
  ∀ (s : State) (c : Cue) (cs : List Cue), s.inFlight = none → s.cmds = [] → s.rspPort = none → s.cues = c :: cs →
    c ≠ .rst → step s = .next { s with cues := cs }

/-- R48, R66: under `go` each word presented is answered by exactly one response, taken in order, and the engine is then
ready for the next word. What one step groups together is the model's choice (log entry 3). -/
def Obligations.OneResponsePerWord : Prop :=
  ∀ (ws rest : List Word16) (s : State), Quiet s → s.cmds = ws ++ rest →
    ∃ t ps, core.run ws.length s = .next t ∧ Quiet t ∧ t.cmds = rest ∧ t.rsps = s.rsps ++ ps ∧
      ps.length = ws.length ∧ ∀ p ∈ ps, p.code ∈ ([0x0, 0x1, 0x2, 0x8, 0x9, 0xA, 0xB] : List (BitVec 4))

/-- R209: a response the host does not take is not lost and stalls the engine; without a reset, responses only ever
get more, in order, and at most one more in a step. The schedule of cues is the model's choice (log entry 3). -/
def Obligations.ResponsesAreNeverLost : Prop :=
  (∀ (s : State) (p : Response) (cs : List Cue), s.rspPort = some p → s.cues = .rspStall :: cs →
    step s = .next { s with cues := cs }) ∧
  (∀ s : State, s.cues.head? ≠ some .rst →
    ∃ t new, step s = .next t ∧ t.rsps ++ t.rspPort.toList = s.rsps ++ s.rspPort.toList ++ new ∧ new.length ≤ 1)

/-- R44: the bus order: a block's bus value is `val(B)`, and byte `i` of a block or of `KEY` stands where the rule says. -/
def Obligations.BusOrder : Prop :=
  (∀ b : Block, (blockBus b).toNat = val b ∧
    ∀ (i : Nat) (h : i < 16), (blockBus b).extractLsb' (120 - 8 * i) 8 = b[i]) ∧
  (∀ (k : KeyArray) (i : Nat) (h : i < 32), (keyBus k).extractLsb' (248 - 8 * i) 8 = k[i])

/-- R47: `NOP`, `STAT` and `RDTAG` change no register and call no oracle, and repeating one gives the same response. -/
def Obligations.ReadsAreIdempotent : Prop :=
  ∀ (i : Instr) (s : State), i = .nop ∨ i = .stat ∨ i = .rdtag →
    ∃ t, exec i s = .next t ∧ t.regs = s.regs ∧ t.calls = s.calls ∧ exec i t = .next t

/-! The commands. -/

/-- R150: `NOP`, legal in every state; the other words with opcode 0 are not `NOP` but illegal. -/
def Obligations.NopRespondsOk : Prop :=
  encode .nop = 0x0000 ∧ (∀ s : State, exec .nop s = .next { s with rspPort := some .ok }) ∧
  ∀ w : Word16, 0x0000 < w.toNat → w.toNat ≤ 0x0fff → (decode w).isLegal = false

/-- R151: `CLR` writes every register with its reset value, in every state, and no other command clears `KEYED`, changes
`KEY` after construction, or clears `TAGV`. -/
def Obligations.ClrResetsRegisters : Prop :=
  encode .clr = 0x1000 ∧
  (∀ (i : Instr) (s : State), i ≠ .clr → ∃ t, exec i s = .next t ∧
    (s.regs.keyed = true → t.regs.keyed = true ∧ t.regs.key = s.regs.key) ∧ (s.regs.tagv = true → t.regs.tagv = true)) ∧
  ∀ s : State, exec .clr s = .next { s with
    regs := { key := Vector.replicate 32 0, klen := 0, keyed := false, k1 := Vector.replicate 16 0
              k2 := Vector.replicate 16 0, x := Vector.replicate 16 0, buf := Vector.replicate 16 0, cnt := 0
              tag := Vector.replicate 16 0, tagv := false }
    rspPort := some .ok }

/-- R83: `KEYB`. -/
def Obligations.KeybAppendsKeyByte : Prop :=
  ∀ (b : Byte) (s : State),
    encode (.keyb b) = 0x2000 ||| b.setWidth 16 ∧
    (s.regs.keyed = true → exec (.keyb b) s = .next { s with rspPort := some (.error .badState) }) ∧
    (s.regs.keyed = false → ∀ h : s.regs.klen.toNat < 32,
      exec (.keyb b) s = .next { s with
        regs := { s.regs with key := s.regs.key.set s.regs.klen.toNat b h, klen := s.regs.klen + 1 }
        rspPort := some .ok }) ∧
    (s.regs.keyed = false → 32 ≤ s.regs.klen.toNat →
      exec (.keyb b) s = .next { s with regs := { s.regs with klen := 33 }, rspPort := some .ok })

/-- R84, R85: `INIT`. -/
def Obligations.InitConstructs : Prop :=
  encode .init = 0x3000 ∧
  ∀ s : State,
    (s.regs.keyed = true → exec .init s = .next { s with rspPort := some (.error .badState) }) ∧
    (s.regs.keyed = false → s.regs.klen.toNat ∉ [16, 24, 32] →
      exec .init s = .next { s with
        regs := { s.regs with key := Vector.replicate 32 0, klen := 0 }
        rspPort := some (.error .invalidKeySize) }) ∧
    (s.regs.keyed = false → s.regs.klen.toNat ∈ [16, 24, 32] →
      let l := Config.E (s.regs.key.toList.take s.regs.klen.toNat) zero16
      exec .init s = .next { s with
        regs := { s.regs with
          k1 := dbl l, k2 := dbl (dbl l), x := Vector.replicate 16 0, buf := Vector.replicate 16 0, cnt := 0
          keyed := true }
        calls := s.calls ++ [⟨⟨s.regs.klen, s.regs.key, zero16⟩, some l⟩]
        rspPort := some .ok })

/-- R105: `MSGB`. -/
def Obligations.MsgbAppendsMessageByte : Prop :=
  ∀ (b : Byte) (s : State),
    encode (.msgb b) = 0x4000 ||| b.setWidth 16 ∧
    (s.regs.keyed = false → exec (.msgb b) s = .next { s with rspPort := some (.error .badState) }) ∧
    (s.regs.keyed = true → s.regs.cnt = 16 →
      let p := xor16 s.regs.x s.regs.buf
      let c := Config.E (s.regs.key.toList.take s.regs.klen.toNat) p
      exec (.msgb b) s = .next { s with
        regs := { s.regs with x := c, buf := zero16.set 0 b, cnt := 1 }
        calls := s.calls ++ [⟨⟨s.regs.klen, s.regs.key, p⟩, some c⟩]
        rspPort := some .ok }) ∧
    (s.regs.keyed = true → ∀ h : s.regs.cnt.toNat < 16,
      exec (.msgb b) s = .next { s with
        regs := { s.regs with buf := s.regs.buf.set s.regs.cnt.toNat b h, cnt := s.regs.cnt + 1 }
        rspPort := some .ok })

/-- R106: `FINAL`: a full buffer takes `K1`, any other is padded and takes `K2`. -/
def Obligations.FinalGivesTag : Prop :=
  encode .final = 0x5000 ∧
  ∀ s : State,
    (s.regs.keyed = false → exec .final s = .next { s with rspPort := some (.error .badState) }) ∧
    (s.regs.keyed = true → ∀ last : Block,
      (s.regs.cnt = 16 ∧ last = xor16 s.regs.buf s.regs.k1) ∨
        (s.regs.cnt.toNat < 16 ∧ last = xor16 (pad s.regs.buf s.regs.cnt.toNat) s.regs.k2) →
      let p := xor16 s.regs.x last
      let t := Config.E (s.regs.key.toList.take s.regs.klen.toNat) p
      exec .final s = .next { s with
        regs := { s.regs with
          tag := t, tagv := true, x := Vector.replicate 16 0, buf := Vector.replicate 16 0, cnt := 0 }
        calls := s.calls ++ [⟨⟨s.regs.klen, s.regs.key, p⟩, some t⟩]
        rspPort := some (.tag t) })

/-- R152, R175: `RDTAG`. -/
def Obligations.RdtagReturnsTag : Prop :=
  encode .rdtag = 0x6000 ∧
  ∀ s : State,
    (s.regs.tagv = false → exec .rdtag s = .next { s with rspPort := some (.error .noTag) }) ∧
    (s.regs.tagv = true → exec .rdtag s = .next { s with rspPort := some (.tag s.regs.tag) })

/-- R153: `STAT`, in every state, and the two data bytes its response carries. -/
def Obligations.StatReturnsStatus : Prop :=
  encode .stat = 0x7000 ∧
  ∀ s : State, ∃ v : Word16,
    v.toNat = s.regs.klen.toNat * 256 + s.regs.cnt.toNat * 8 + s.regs.tagv.toNat * 2 + s.regs.keyed.toNat ∧
    exec .stat s = .next { s with rspPort := some (.status v) } ∧
    (Response.status v).data[14] = v.extractLsb' 8 8 ∧ (Response.status v).data[15] = v.extractLsb' 0 8

/-! Errors (60_exceptions.md). -/

/-- R171, R170: the complete list of errors with their conditions and their state changes: for every word in every
state the response is each error exactly under that error's condition; an error makes no oracle call and changes no
register, but for the wiped key of `ERR_INVALID_KEY_SIZE`. -/
def Obligations.ErrorsAreExactlyThese : Prop :=
  ∀ (w : Word16) (s : State), ∃ t p, runWord w s = .next t ∧ t.rspPort = some p ∧
    (p = .error .illegalCmd ↔ (decode w).isLegal = false) ∧
    (p = .error .badState ↔
      (s.regs.keyed = true ∧ ((∃ b, decode w = .legal (.keyb b)) ∨ decode w = .legal .init)) ∨
      (s.regs.keyed = false ∧ ((∃ b, decode w = .legal (.msgb b)) ∨ decode w = .legal .final))) ∧
    (p = .error .noTag ↔ decode w = .legal .rdtag ∧ s.regs.tagv = false) ∧
    (p = .error .invalidKeySize ↔
      decode w = .legal .init ∧ s.regs.keyed = false ∧ s.regs.klen.toNat ∉ [16, 24, 32]) ∧
    (p.isError = true → p ≠ .error .invalidKeySize → t = { s with rspPort := some p }) ∧
    (p = .error .invalidKeySize →
      t = { s with regs := { s.regs with key := Vector.replicate 32 0, klen := 0 }, rspPort := some p })

/-- R176: on a keyed engine every `MSGB` responds `OK` and every `FINAL` responds with a tag. -/
def Obligations.TagPathHasNoError : Prop :=
  ∀ (b : Byte) (s : State), s.regs.keyed = true →
    (∃ t, exec (.msgb b) s = .next t ∧ t.rspPort = some .ok) ∧
    (∃ t, exec .final s = .next t ∧ t.rspPort = some (.tag t.regs.tag) ∧ t.regs.tagv = true)

/-- R184: what a command lets out: a response that is no tag depends on the word and on `KEYED`, `TAGV`, `CNT`, `KLEN`
alone, whatever the key, subkeys, chaining value, buffer and tag are; and the only tag that leaves is the one in `TAG`. -/
def Obligations.ResponsesHideSecrets : Prop :=
  ∀ (w : Word16) (s s' : State), s.regs.shape = s'.regs.shape →
    ∃ t t' p p', runWord w s = .next t ∧ runWord w s' = .next t' ∧ t.rspPort = some p ∧ t'.rspPort = some p' ∧
      (p.tag? = none → p' = p) ∧
      (∀ a, p.tag? = some a → a = t.regs.tag ∧ t.regs.tagv = true ∧ p'.tag? = some t'.regs.tag)

/-- R125 (c): which responses are given and which oracle requests are made, step by step, does not depend on any data
byte: two states that differ only in data do so again after a step. -/
def Obligations.SequencingIgnoresData : Prop :=
  ∀ s s' : State, SameButData s s' → ∃ t t', step s = .next t ∧ step s' = .next t' ∧ SameButData t t'

/-! The oracle port (43_cipher_oracle.md, 70_reset_and_hazards.md R211). -/

/-- R211: how many oracle requests each command makes. -/
def Obligations.OracleRequestsPerCommand : Prop :=
  ∀ (i : Instr) (s : State), ∃ t new, exec i s = .next t ∧ t.calls = s.calls ++ new ∧
    new.length = (match i with
      | .nop => 0
      | .clr => 0
      | .keyb _ => 0
      | .init => if s.regs.keyed = false ∧ s.regs.klen.toNat ∈ [16, 24, 32] then 1 else 0
      | .msgb _ => if s.regs.keyed = true ∧ s.regs.cnt = 16 then 1 else 0
      | .final => if s.regs.keyed = true then 1 else 0
      | .rdtag => 0
      | .stat => 0)

/-- R140, R141: every request a command makes carries the engine's own `KLEN` and whole `KEY`, and the engine uses the
answer `E(KEY[0 .. KLEN), p)`. -/
def Obligations.RequestsCarryEngineKey : Prop :=
  ∀ (i : Instr) (s : State), ∃ t new, exec i s = .next t ∧ t.calls = s.calls ++ new ∧
    ∀ c ∈ new, c.req.klen = s.regs.klen ∧ c.req.key = s.regs.key ∧
      c.ct = some (Config.E (s.regs.key.toList.take s.regs.klen.toNat) c.req.pt)

/-- R147: both test oracles are permutations for every key of legal length. -/
def Obligations.TestOraclesArePermutations : Prop := IsPermOracle eId ∧ IsPermOracle eToy1

/-! The functions (40_subkey_derivation.md, 41_tag_computation.md, 42_block_utilities.md). -/

/-- R121: `XOR16` byte by byte, and its laws. -/
def Obligations.XorBlockLaws : Prop :=
  ∀ a b c : Block,
    (∀ (i : Nat) (h : i < 16), (xor16 a b)[i] = a[i] ^^^ b[i]) ∧
    xor16 a b = xor16 b a ∧ xor16 (xor16 a b) c = xor16 a (xor16 b c) ∧ xor16 a zero16 = a ∧ xor16 a a = zero16 ∧
    val (xor16 a b) = val a ^^^ val b

/-- R122: `SHL1` byte by byte, and as a 128-bit number. -/
def Obligations.ShiftLeftOne : Prop :=
  ∀ a : Block,
    (∀ (i : Nat) (h : i < 15), (shl1 a)[i] = (a[i] <<< 1) ||| (a[i + 1] >>> 7)) ∧
    (shl1 a)[15] = a[15] <<< 1 ∧ val (shl1 a) = (2 * val a) % 2 ^ 128

/-- R123: which bit `MSB(a)` is, and when it is 1. -/
def Obligations.TopBitByValue : Prop :=
  ∀ a : Block, msb a = a[0].getLsbD 7 ∧ (msb a = true ↔ 2 ^ 127 ≤ val a) ∧ (msb a = true ↔ 0x80 ≤ a[0].toNat)

/-- R81, R125 (b): `DBL` is the shift with byte 15 XORed with `0x87 AND mask`, the mask all ones exactly when `MSB(a)`
is 1; no other byte is touched. -/
def Obligations.DoublingSelectsByMask : Prop :=
  ∀ a : Block, ∀ mask : Byte, mask = (if msb a then 0xff else 0x00) →
    (∀ (i : Nat) (h : i < 15), (dbl a)[i] = (shl1 a)[i]) ∧ (dbl a)[15] = (shl1 a)[15] ^^^ (0x87 &&& mask)

/-- R88: the algebraic reading of `DBL`, its inverse, and when a subkey is zero. -/
def Obligations.DoublingIsInvertible : Prop :=
  Function.Bijective dbl ∧
  ∀ a b : Block,
    (val a < 2 ^ 127 → val (dbl a) = (2 * val a) % 2 ^ 128) ∧
    (2 ^ 127 ≤ val a → val (dbl a) = ((2 * val a) % 2 ^ 128) ^^^ 0x87) ∧
    (dbl a)[15].getLsbD 0 = msb a ∧
    halve (dbl a) = a ∧ dbl (halve b) = b ∧ (dbl a = zero16 ↔ a = zero16)

/-- R124, R27: the bytes of `PAD(buf, c)`, and what `PAD(BUF, CNT)` is in the engine. -/
def Obligations.PaddingBytes : Prop :=
  ∀ (buf : Block) (c : Nat) (h : c < 16),
    (∀ (i : Nat) (hi : i < 16), i < c → (pad buf c)[i] = buf[i]) ∧ (pad buf c)[c] = 0x80 ∧
    (∀ (i : Nat) (hi : i < 16), c < i → (pad buf c)[i] = 0x00) ∧
    ((∀ (i : Nat) (hi : i < 16), c ≤ i → buf[i] = 0x00) → pad buf c = buf.set c 0x80)

/-- R80: `DERIVE`, for every oracle and key. -/
def Obligations.DeriveDoublesTwice : Prop :=
  ∀ (E : Oracle) (key : List Byte), derive E key = (dbl (E key zero16), dbl (dbl (E key zero16)))

/-- R101: the block count, and that one evaluation of `CMAC` takes that many oracle calls. -/
def Obligations.BlockCount : Prop :=
  ∀ m : List Byte, (m = [] → blockCount m = 1) ∧ (m ≠ [] → blockCount m = (m.length + 15) / 16) ∧
    blockCount m = max 1 ((m.length + 15) / 16) ∧ 1 ≤ blockCount m ∧
    ∀ (E : Oracle) (key : List Byte) (k1 k2 : Block), (messagePlaintexts E key k1 k2 m).length = blockCount m

/-- R102: the bytes of the last block before and after the subkey: told by the length alone. -/
def Obligations.LastBlockAndSubkey : Prop :=
  ∀ (k1 k2 : Block) (m : List Byte),
    (0 < m.length → m.length % 16 = 0 →
      ∀ (i : Nat) (h : i < 16), (lastBlockOf k1 k2 m)[i] = m.getD (m.length - 16 + i) 0 ^^^ k1[i]) ∧
    (m.length = 0 ∨ m.length % 16 ≠ 0 →
      ∀ (i : Nat) (h : i < 16), (lastBlockOf k1 k2 m)[i] =
        (if i < m.length % 16 then m.getD (m.length - m.length % 16 + i) 0
         else if i = m.length % 16 then 0x80 else 0x00) ^^^ k2[i])

/-- R107: the byte-serial commands compute the source's algorithm. On a keyed engine at a message boundary, any words
without `CLR` and `FINAL`, then `FINAL`: the last response is the `CMAC` of the bytes of the `MSGB` words among them, and
the engine is at a boundary again with the same key and subkeys. That each word takes one step is the model's choice (log
entry 3). -/
def Obligations.SerialTagIsCmac : Prop :=
  ∀ (s : State) (ws rest : List Word16), Quiet s → s.regs.keyed = true → AtBoundary s.regs →
    (∀ w ∈ ws, w ≠ encode .clr ∧ w ≠ encode .final) → s.cmds = ws ++ encode .final :: rest →
    ∃ t ps, core.run (ws.length + 1) s = .next t ∧ Quiet t ∧ t.cmds = rest ∧ AtBoundary t.regs ∧
      t.regs.keyed = true ∧ t.regs.key = s.regs.key ∧ t.regs.klen = s.regs.klen ∧ t.regs.k1 = s.regs.k1 ∧
      t.regs.k2 = s.regs.k2 ∧ ps.length = ws.length ∧
      t.rsps = s.rsps ++ ps ++ [.tag (cmac Config.E (keySlice s.regs) s.regs.k1 s.regs.k2 (messageOf ws))]

/-- R108: the oracle requests of one message, in order: `n` of them, their plaintexts the chaining inputs and then the
last one, all with the engine's key. That each word takes one step is the model's choice (log entry 3). -/
def Obligations.MessageOracleRequests : Prop :=
  ∀ (s : State) (m : List Byte), Quiet s → s.regs.keyed = true → AtBoundary s.regs →
    s.cmds = (calculateCommands m).map encode →
    ∃ t, core.run (m.length + 1) s = .next t ∧
      t.calls = s.calls ++ (messagePlaintexts Config.E (keySlice s.regs) s.regs.k1 s.regs.k2 m).map (fun p =>
        ⟨⟨s.regs.klen, s.regs.key, p⟩, some (Config.E (keySlice s.regs) p)⟩) ∧
      t.calls.length = s.calls.length + max 1 ((m.length + 15) / 16)

/-- R103: the tag depends only on the key, the open message and `E`: two engines with the same key, whatever else they
hold, answer the same message with the same tag. That each word takes one step is the model's choice (log entry 3). -/
def Obligations.TagIgnoresHistory : Prop :=
  ∀ (s s' : State) (m : List Byte), s.Inv → s'.Inv → Quiet s → Quiet s' → s.regs.keyed = true → s'.regs.keyed = true →
    AtBoundary s.regs → AtBoundary s'.regs → keySlice s.regs = keySlice s'.regs →
    s.cmds = (calculateCommands m).map encode → s'.cmds = (calculateCommands m).map encode →
    ∃ t t', core.run (m.length + 1) s = .next t ∧ core.run (m.length + 1) s' = .next t' ∧ t.regs.tag = t'.regs.tag ∧
      t.rsps.getLast? = some (.tag t.regs.tag) ∧ t'.rsps.getLast? = some (.tag t'.regs.tag)

/-- R109: under P-PERM two messages of one length that differ in exactly one block have different tags. -/
def Obligations.OneBlockChangesTag : Prop :=
  ∀ (E : Oracle) (key m m' : List Byte) (j : Nat), IsPermOracle E → key.length ∈ [16, 24, 32] →
    m.length = m'.length → slice m (16 * j) (16 * (j + 1)) ≠ slice m' (16 * j) (16 * (j + 1)) →
    (∀ i, i ≠ j → slice m (16 * i) (16 * (i + 1)) = slice m' (16 * i) (16 * (i + 1))) →
    cmacOf E key m ≠ cmacOf E key m'

/-- R87: `CONSTRUCT k` from any state, for every byte string `k`, is the source's `construct(key)`.
That each word takes one step is the model's choice (log entry 3). -/
def Obligations.ConstructMatchesSource : Prop :=
  ∀ (s : State) (k : List Byte) (rest : List Word16), Quiet s →
    s.cmds = (constructCommands k).map encode ++ rest →
    ∃ t, core.run (k.length + 2) s = .next t ∧ Quiet t ∧ t.cmds = rest ∧
      (k.length ∈ [16, 24, 32] →
        t.rsps.getLast? = some .ok ∧ t.regs.keyed = true ∧ keySlice t.regs = k ∧ t.regs.klen.toNat = k.length ∧
        (t.regs.k1, t.regs.k2) = derive Config.E k ∧ AtBoundary t.regs ∧
        t.regs.tag = zero16 ∧ t.regs.tagv = false) ∧
      (k.length ∉ [16, 24, 32] →
        t.rsps.getLast? = some (.error .invalidKeySize) ∧ t.regs = State.reset.regs)

/-- R110: after a successful `CONSTRUCT k`, each `CALCULATE m` of any list of messages returns `CMAC(k, m)`.
That each word takes one step is the model's choice (log entry 3). -/
def Obligations.CalculateReturnsCmac : Prop :=
  ∀ (s : State) (k : List Byte) (ms : List (List Byte)), Quiet s → k.length ∈ [16, 24, 32] →
    s.cmds = (constructCommands k ++ ms.flatMap calculateCommands).map encode →
    ∃ t, core.run s.cmds.length s = .next t ∧ t.cmds = [] ∧
      t.rsps.filterMap Response.tag? =
        s.rsps.filterMap Response.tag? ++ ms.map (fun m => cmacOf Config.E k m)
end

