-- ==== Sys2Proof/Laws/Block.lean ====
section
/-! SUPPORT. The bytes of what each block operation gives. -/

namespace Sys2Proof.Machine

/-- Two blocks are equal when all sixteen bytes are. -/
theorem block_ext {a b : Block} (h : ∀ (i : Nat) (hi : i < 16), a[i] = b[i]) : a = b :=
  Vector.ext h

@[simp] theorem getElem_zero16 (i : Nat) (h : i < 16) : zero16[i] = 0 := by simp [zero16]

@[simp] theorem getElem_zero32 (i : Nat) (h : i < 32) : zero32[i] = 0 := by simp [zero32]

@[simp] theorem getElem_xor16 (a b : Block) (i : Nat) (h : i < 16) : (xor16 a b)[i] = a[i] ^^^ b[i] := by
  simp [xor16]

theorem getElem_shl1 (a : Block) (i : Nat) (h : i < 16) :
    (shl1 a)[i] = (a[i] <<< 1) ||| (if h : i + 1 < 16 then a[i + 1] >>> 7 else 0) := by
  simp [shl1]

theorem getElem_pad (b : Block) (c i : Nat) (h : i < 16) :
    (pad b c)[i] = if i < c then b[i] else if i = c then padByte else 0 := by
  simp [pad]

@[simp] theorem getElem_blockOf (l : List Byte) (i : Nat) (h : i < 16) : (blockOf l)[i] = l.getD i 0 := by
  simp [blockOf]

/-- `RB` is zero except in its last byte (40_subkey_derivation.md R82). -/
theorem getElem_rb (i : Nat) (h : i < 16) : rb[i] = if i = 15 then 0x87 else 0 := by
  unfold rb
  by_cases h15 : i = 15
  · subst h15; simp
  · simp [h15, Ne.symm h15]

theorem getElem_dbl (a : Block) (i : Nat) (h : i < 16) :
    (dbl a)[i] = (shl1 a)[i] ^^^ (if msb a then (if i = 15 then 0x87 else 0) else 0) := by
  unfold dbl
  split <;> simp [getElem_rb]

theorem getElem_eToy1 (key : List Byte) (p : Block) (i : Nat) (h : i < 16) :
    (eToy1 key p)[i] =
      (p[(i + 1) % 16]'(Nat.mod_lt _ (by decide)) ^^^ (foldKey key)[i]) + BitVec.ofNat 8 i := by
  simp [eToy1]

/-- The number of a byte string as a sum over its bytes. -/
theorem numberOf_eq_sum (l : List Byte) :
    numberOf l = ((List.range l.length).map fun i => 256 ^ (l.length - 1 - i) * (l.getD i 0).toNat).sum := by
  induction l with
  | nil => rfl
  | cons b l ih =>
    rw [numberOf, ih, List.length_cons, List.range_succ_eq_map, List.map_cons, List.sum_cons, List.map_map]
    congr 2
    apply List.map_congr_left
    intro i hi
    simp [Nat.sub_sub, Nat.add_comm]

/-- `val(B)` is the sum over `i` of `B[i] * 256^(15-i)`, as 00_scope.md R7 writes it. -/
theorem val_eq_sum (b : Block) : val b = ((List.range 16).map fun i => 256 ^ (15 - i) * (b.toList.getD i 0).toNat).sum := by
  rw [val, numberOf_eq_sum, Vector.length_toList]

/-- The bus value of a byte string is its number (20_memory.md R44). -/
theorem toNat_busOf_cons (b : Byte) (l : List Byte) :
    (busOf (b :: l)).toNat = 256 ^ l.length * b.toNat + (busOf l).toNat := by
  rw [busOf, BitVec.toNat_cast, BitVec.toNat_append, ← Nat.shiftLeft_add_eq_or_of_lt (busOf l).isLt, Nat.shiftLeft_eq,
    Nat.pow_mul, Nat.mul_comm]

/-- Bit `j` of a bus is bit `j mod 8` of byte `j / 8` from the end (20_memory.md R44). -/
theorem getLsbD_busOf (l : List Byte) (j : Nat) (h : j < 8 * l.length) :
    (busOf l).getLsbD j = (l.getD (l.length - 1 - j / 8) 0).getLsbD (j % 8) := by
  induction l with
  | nil => simp at h
  | cons b l ih =>
    rw [busOf, BitVec.getLsbD_cast, BitVec.getLsbD_append]
    simp only [List.length_cons] at h ⊢
    split
    · rename_i hj
      rw [ih hj, show l.length + 1 - 1 - j / 8 = (l.length - 1 - j / 8) + 1 by omega, List.getD_cons_succ]
    · rename_i hj
      rw [show l.length + 1 - 1 - j / 8 = 0 by omega, List.getD_cons_zero, show j - 8 * l.length = j % 8 by omega]

/-- Bit `j` of a block's bus is bit `j` of the block (00_scope.md R7). -/
theorem getLsbD_blockBus (b : Block) (j : Nat) (h : j < 128) :
    (blockBus b).getLsbD j = b[15 - j / 8].getLsbD (j % 8) := by
  rw [blockBus, BitVec.getLsbD_cast, getLsbD_busOf _ _ (by simpa using h)]
  congr 1
  rw [List.getD, Vector.getElem?_toList, Vector.getElem?_eq_getElem (by simp; omega)]
  simp

/-- Bit `j` of the key bus. -/
theorem getLsbD_keyBus (k : KeyArray) (j : Nat) (h : j < 256) :
    (keyBus k).getLsbD j = k[31 - j / 8].getLsbD (j % 8) := by
  rw [keyBus, BitVec.getLsbD_cast, getLsbD_busOf _ _ (by simpa using h)]
  congr 1
  rw [List.getD, Vector.getElem?_toList, Vector.getElem?_eq_getElem (by simp; omega)]
  simp

/-- Only the first sixteen bytes of a list make its block. -/
theorem blockOf_take (l : List Byte) : blockOf (l.take 16) = blockOf l := by
  apply block_ext
  intro i hi
  simp [List.getD, hi]

@[simp] theorem blockOf_nil : blockOf [] = zero16 := by
  apply block_ext
  intro i hi
  simp

end Sys2Proof.Machine
end

