-- ==== Sys2Proof/Laws/State.lean ====
section
/-! SUPPORT. One lemma per field per update of the state and of the registers, each true by unfolding once. -/

namespace Sys2Proof.Machine

section Commit
variable (s : State) (e : Effect)

@[simp] theorem commit_regs : (s.commit e).regs = e.regs := rfl
@[simp] theorem commit_cmds : (s.commit e).cmds = s.cmds := rfl
@[simp] theorem commit_cues : (s.commit e).cues = s.cues := rfl
@[simp] theorem commit_inFlight : (s.commit e).inFlight = s.inFlight := rfl
@[simp] theorem commit_rspPort : (s.commit e).rspPort = some e.rsp := rfl
@[simp] theorem commit_rsps : (s.commit e).rsps = s.rsps := rfl
@[simp] theorem commit_calls : (s.commit e).calls = s.calls ++ e.calls := rfl

end Commit

section TakeResponse
variable (s : State)

@[simp] theorem takeResponse_regs : s.takeResponse.regs = s.regs := rfl
@[simp] theorem takeResponse_cmds : s.takeResponse.cmds = s.cmds := rfl
@[simp] theorem takeResponse_cues : s.takeResponse.cues = s.cues := rfl
@[simp] theorem takeResponse_inFlight : s.takeResponse.inFlight = s.inFlight := rfl
@[simp] theorem takeResponse_rspPort : s.takeResponse.rspPort = none := rfl
@[simp] theorem takeResponse_rsps : s.takeResponse.rsps = s.rsps ++ s.rspPort.toList := rfl
@[simp] theorem takeResponse_calls : s.takeResponse.calls = s.calls := rfl

/-- With no response offered there is nothing to take. -/
theorem takeResponse_of_none (h : s.rspPort = none) : s.takeResponse = s := by
  cases s; simp_all [State.takeResponse]

end TakeResponse

section AfterReset
variable (s : State)

@[simp] theorem afterReset_regs : s.afterReset.regs = Regs.reset := rfl
@[simp] theorem afterReset_cmds : s.afterReset.cmds = s.cmds := rfl
@[simp] theorem afterReset_cues : s.afterReset.cues = s.cues := rfl
@[simp] theorem afterReset_inFlight : s.afterReset.inFlight = none := rfl
@[simp] theorem afterReset_rspPort : s.afterReset.rspPort = none := rfl
@[simp] theorem afterReset_rsps : s.afterReset.rsps = s.rsps := rfl
@[simp] theorem afterReset_calls :
    s.afterReset.calls = s.calls ++ (s.inFlight.map InFlight.abandoned).getD [] := rfl

end AfterReset

section Boundary
variable (r : Regs)

@[simp] theorem toBoundary_key : (toBoundary r).key = r.key := rfl
@[simp] theorem toBoundary_klen : (toBoundary r).klen = r.klen := rfl
@[simp] theorem toBoundary_keyed : (toBoundary r).keyed = r.keyed := rfl
@[simp] theorem toBoundary_k1 : (toBoundary r).k1 = r.k1 := rfl
@[simp] theorem toBoundary_k2 : (toBoundary r).k2 = r.k2 := rfl
@[simp] theorem toBoundary_x : (toBoundary r).x = zero16 := rfl
@[simp] theorem toBoundary_buf : (toBoundary r).buf = zero16 := rfl
@[simp] theorem toBoundary_cnt : (toBoundary r).cnt = 0 := rfl
@[simp] theorem toBoundary_tag : (toBoundary r).tag = r.tag := rfl
@[simp] theorem toBoundary_tagv : (toBoundary r).tagv = r.tagv := rfl

end Boundary

section Append
variable (r : Regs) (b : Byte)

@[simp] theorem appendKeyByte_key : (appendKeyByte r b).key = r.key.setIfInBounds r.klen.toNat b := rfl
@[simp] theorem appendKeyByte_klen : (appendKeyByte r b).klen = r.klen + 1 := rfl
@[simp] theorem appendKeyByte_keyed : (appendKeyByte r b).keyed = r.keyed := rfl
@[simp] theorem appendKeyByte_k1 : (appendKeyByte r b).k1 = r.k1 := rfl
@[simp] theorem appendKeyByte_k2 : (appendKeyByte r b).k2 = r.k2 := rfl
@[simp] theorem appendKeyByte_x : (appendKeyByte r b).x = r.x := rfl
@[simp] theorem appendKeyByte_buf : (appendKeyByte r b).buf = r.buf := rfl
@[simp] theorem appendKeyByte_cnt : (appendKeyByte r b).cnt = r.cnt := rfl
@[simp] theorem appendKeyByte_tag : (appendKeyByte r b).tag = r.tag := rfl
@[simp] theorem appendKeyByte_tagv : (appendKeyByte r b).tagv = r.tagv := rfl

@[simp] theorem appendBufByte_key : (appendBufByte r b).key = r.key := rfl
@[simp] theorem appendBufByte_klen : (appendBufByte r b).klen = r.klen := rfl
@[simp] theorem appendBufByte_keyed : (appendBufByte r b).keyed = r.keyed := rfl
@[simp] theorem appendBufByte_k1 : (appendBufByte r b).k1 = r.k1 := rfl
@[simp] theorem appendBufByte_k2 : (appendBufByte r b).k2 = r.k2 := rfl
@[simp] theorem appendBufByte_x : (appendBufByte r b).x = r.x := rfl
@[simp] theorem appendBufByte_buf : (appendBufByte r b).buf = r.buf.setIfInBounds r.cnt.toNat b := rfl
@[simp] theorem appendBufByte_cnt : (appendBufByte r b).cnt = r.cnt + 1 := rfl
@[simp] theorem appendBufByte_tag : (appendBufByte r b).tag = r.tag := rfl
@[simp] theorem appendBufByte_tagv : (appendBufByte r b).tagv = r.tagv := rfl

end Append

section Retire
variable (E : Oracle) (r : Regs)

@[simp] theorem retireBlock_key : (retireBlock E r).key = r.key := rfl
@[simp] theorem retireBlock_klen : (retireBlock E r).klen = r.klen := rfl
@[simp] theorem retireBlock_keyed : (retireBlock E r).keyed = r.keyed := rfl
@[simp] theorem retireBlock_k1 : (retireBlock E r).k1 = r.k1 := rfl
@[simp] theorem retireBlock_k2 : (retireBlock E r).k2 = r.k2 := rfl
@[simp] theorem retireBlock_x : (retireBlock E r).x = enc E r (retirePlaintext r) := rfl
@[simp] theorem retireBlock_buf : (retireBlock E r).buf = zero16 := rfl
@[simp] theorem retireBlock_cnt : (retireBlock E r).cnt = 0 := rfl
@[simp] theorem retireBlock_tag : (retireBlock E r).tag = r.tag := rfl
@[simp] theorem retireBlock_tagv : (retireBlock E r).tagv = r.tagv := rfl

end Retire

/-- The key handed to the oracle is made of `KEY` and `KLEN` alone. -/
theorem keySlice_congr {r r' : Regs} (hk : r.key = r'.key) (hl : r.klen = r'.klen) : keySlice r = keySlice r' := by
  rw [keySlice, keySlice, hk, hl]

/-- The writes of `CLR` are the reset values. -/
@[simp] theorem cleared_eq_reset (r : Regs) : cleared r = Regs.reset := rfl

section Effects
variable (r : Regs) (p : Response) (e : ErrorCode)

@[simp] theorem respond_regs : (respond r p).regs = r := rfl
@[simp] theorem respond_calls : (respond r p).calls = [] := rfl
@[simp] theorem respond_rsp : (respond r p).rsp = p := rfl
@[simp] theorem raise_regs : (raise r e).regs = r := rfl
@[simp] theorem raise_calls : (raise r e).calls = [] := rfl
@[simp] theorem raise_rsp : (raise r e).rsp = .error e := rfl

end Effects

section Outcomes
variable (f : State → State) (s t : State)

@[simp] theorem mapNext_next : mapNext f (.next s) = .next (f s) := rfl

theorem next_injective : (Host.Outcome.next s : Host.Outcome State Fault Refusal) = .next t ↔ s = t :=
  ⟨fun h => by cases h; rfl, fun h => by rw [h]⟩

end Outcomes

end Sys2Proof.Machine
end

