-- ==== Sys2Proof/Laws/Effects.lean ====
section
/-! SUPPORT. Everything a command can do, said once per command: later proofs cite these and do not unfold a meaning. -/

namespace Sys2Proof.Machine

/-- A command writes its effect to the state, all at once. -/
theorem exec_eq_commit (i : Instr) (s : State) : exec i s = .next (s.commit (effect Config.E i s.regs)) := by
  cases i <;> rfl

/-- A command word writes its effect to the state, all at once. -/
theorem runWord_eq_commit (w : Word16) (s : State) :
    runWord w s = .next (s.commit (wordEffect Config.E w s.regs)) := by
  unfold runWord wordEffect
  cases decode w with
  | legal i => exact exec_eq_commit i s
  | illegal _ => rfl

section
variable (E : Oracle) (r : Regs) (b : Byte)

theorem wordEffect_of_legal {w : Word16} {i : Instr} (h : decode w = .legal i) : wordEffect E w r = effect E i r := by
  simp [wordEffect, h]

theorem wordEffect_of_illegal {w : Word16} {c : IllegalReason} (h : decode w = .illegal c) :
    wordEffect E w r = raise r .illegalCmd := by
  simp [wordEffect, h]

theorem keybEffect_keyed (h : r.keyed = true) : keybEffect b r = raise r .badState := by
  simp [keybEffect, h]

theorem keybEffect_room (h : r.keyed = false) (hk : r.klen.toNat < 32) :
    keybEffect b r = respond (appendKeyByte r b) .ok := by
  simp [keybEffect, h, Config.keyBufBytes, hk]

theorem keybEffect_full (h : r.keyed = false) (hk : 32 ≤ r.klen.toNat) :
    keybEffect b r = respond { r with klen := 33 } .ok := by
  simp [keybEffect, h, Config.keyBufBytes, Config.klenSat, Nat.not_lt.mpr hk]

theorem validKeyLength_iff (k : BitVec 6) : validKeyLength k = true ↔ k.toNat ∈ Config.keyLengths := by
  simp [validKeyLength]

theorem initEffect_keyed (h : r.keyed = true) : initEffect E r = raise r .badState := by
  simp [initEffect, h]

theorem initEffect_badLength (h : r.keyed = false) (hk : r.klen.toNat ∉ Config.keyLengths) :
    initEffect E r = raise { r with key := zero32, klen := 0 } .invalidKeySize := by
  have : validKeyLength r.klen = false := by
    rw [← Bool.not_eq_true, validKeyLength_iff]; exact hk
  simp [initEffect, h, this]

theorem initEffect_ok (h : r.keyed = false) (hk : r.klen.toNat ∈ Config.keyLengths) :
    initEffect E r =
      { regs := { toBoundary { r with
                    k1 := (derive E (keySlice r)).1, k2 := (derive E (keySlice r)).2 } with keyed := true }
        calls := [encCall E r zero16]
        rsp := .ok } := by
  simp [initEffect, h, (validKeyLength_iff _).2 hk]

theorem msgbEffect_unkeyed (h : r.keyed = false) : msgbEffect E b r = raise r .badState := by
  simp [msgbEffect, h]

theorem msgbEffect_room (h : r.keyed = true) (hc : r.cnt ≠ 16) :
    msgbEffect E b r = respond (appendBufByte r b) .ok := by
  unfold msgbEffect
  rw [if_neg (by simp [h]), if_neg hc]

theorem msgbEffect_full (h : r.keyed = true) (hc : r.cnt = 16) :
    msgbEffect E b r =
      { regs := appendBufByte (retireBlock E r) b, calls := [encCall E r (retirePlaintext r)], rsp := .ok } := by
  unfold msgbEffect
  rw [if_neg (by simp [h]), if_pos hc]

theorem finalEffect_unkeyed (h : r.keyed = false) : finalEffect E r = raise r .badState := by
  simp [finalEffect, h]

theorem finalEffect_keyed (h : r.keyed = true) :
    finalEffect E r =
      { regs := toBoundary { r with tag := enc E r (finalPlaintext r), tagv := true }
        calls := [encCall E r (finalPlaintext r)]
        rsp := .tag (enc E r (finalPlaintext r)) } := by
  simp [finalEffect, h]

theorem rdtagEffect_noTag (h : r.tagv = false) : rdtagEffect r = raise r .noTag := by
  simp [rdtagEffect, h]

theorem rdtagEffect_tag (h : r.tagv = true) : rdtagEffect r = respond r (.tag r.tag) := by
  simp [rdtagEffect, h]

/-- The key the oracle is asked with is the engine's key (43_cipher_oracle.md R140). -/
theorem answer_request (p : Block) : answer E (request r p) = enc E r p := rfl

end

end Sys2Proof.Machine
end

