-- ==== Sys2Proof/Laws/Message.lean ====
section
/-! SUPPORT. How the blocks of a message relate to its bytes, and what one more byte, or the last one, does to the
registers that hold an open message. -/

namespace Sys2Proof.Machine

/-- The blocks that a shorter message fills are blocks of the longer one. -/
theorem messageBlock_append (m t : List Byte) (i : Nat) (h : 16 * (i + 1) ≤ m.length) :
    messageBlock (m ++ t) i = messageBlock m i := by
  rw [messageBlock, messageBlock, slice, slice, List.drop_append_of_le_length (by omega),
    List.take_append_of_le_length (by simp; omega)]

/-- The chaining value after the blocks that a shorter message fills. -/
theorem chain_append (E : Oracle) (key m t : List Byte) (i : Nat) (h : 16 * i ≤ m.length) :
    chain E key (m ++ t) i = chain E key m i := by
  induction i with
  | zero => rfl
  | succ i ih => rw [chain, chain, ih (by omega), messageBlock_append _ _ _ h]

/-- A block is the first sixteen of the bytes that follow. -/
theorem messageBlock_eq_drop (m : List Byte) (i : Nat) : messageBlock m i = blockOf (m.drop (16 * i)) := by
  rw [messageBlock, slice, show 16 * (i + 1) - 16 * i = 16 by omega, blockOf_take]

/-- Appending a byte to a buffer that has room for it. -/
theorem blockOf_snoc (l : List Byte) (b : Byte) :
    (blockOf l).setIfInBounds l.length b = blockOf (l ++ [b]) := by
  apply block_ext
  intro i hi
  rw [Vector.getElem_setIfInBounds, getElem_blockOf, getElem_blockOf]
  rcases Nat.lt_trichotomy i l.length with hl | hl | hl
  · rw [if_neg (by omega), List.getD_append _ _ _ _ hl]
  · rw [if_pos hl.symm, hl, List.getD_append_right _ _ _ _ (Nat.le_refl _), Nat.sub_self, List.getD_cons_zero]
  · rw [if_neg (by omega), List.getD_eq_default _ _ (by omega), List.getD_eq_default _ _ (by simp; omega)]

/-- The last block of a message that fills it (R102). -/
theorem lastBlockOf_full (k1 k2 : Block) (m : List Byte) (h : 0 < m.length) (h' : m.length % 16 = 0) :
    lastBlockOf k1 k2 m = xor16 (blockOf (slice m (m.length - 16) m.length)) k1 := by
  simp [lastBlockOf, h, h']

/-- The last block of any other message (R102). -/
theorem lastBlockOf_partial (k1 k2 : Block) (m : List Byte) (h : m.length = 0 ∨ m.length % 16 ≠ 0) :
    lastBlockOf k1 k2 m =
      xor16 (blockOf (slice m (m.length - m.length % 16) m.length ++
        padByte :: List.replicate (15 - m.length % 16) 0)) k2 := by
  have hs : 16 * (blockCount m - 1) = m.length - m.length % 16 := by
    unfold blockCount
    split <;> omega
  unfold lastBlockOf
  simp only
  rw [if_neg (by omega), hs, show m.length - (m.length - m.length % 16) = m.length % 16 by omega]

/-- Padding a buffer that holds some bytes and zeros after them. -/
theorem pad_blockOf (l : List Byte) (h : l.length < 16) :
    pad (blockOf l) l.length = blockOf (l ++ padByte :: List.replicate (15 - l.length) 0) := by
  apply block_ext
  intro i hi
  rw [getElem_pad, getElem_blockOf, getElem_blockOf]
  rcases Nat.lt_trichotomy i l.length with hl | hl | hl
  · rw [if_pos hl, List.getD_append _ _ _ _ hl]
  · rw [if_neg (by omega), if_pos hl, hl, List.getD_append_right _ _ _ _ (Nat.le_refl _), Nat.sub_self,
      List.getD_cons_zero]
  · rw [if_neg (by omega), if_neg (by omega), List.getD_append_right _ _ _ _ (by omega)]
    obtain ⟨d, hd⟩ : ∃ d, i - l.length = d + 1 := ⟨i - l.length - 1, by omega⟩
    rw [hd, List.getD_cons_succ, List.getD_eq_getElem _ _ (by simp; omega), List.getElem_replicate]

section
variable {E : Oracle} {m : List Byte} {r : Regs}

/-- `CNT` as a number, for an open message. -/
theorem Streams.cnt_le (h : Streams E m r) : r.cnt.toNat ≤ 16 := by
  rcases Nat.eq_zero_or_pos m.length with h0 | h0
  · rw [(h.empty h0).cnt]; decide
  · rw [h.count h0]; omega

theorem atBoundary_toBoundary (r : Regs) : AtBoundary (toBoundary r) := ⟨rfl, rfl, rfl⟩

/-- At a boundary the open message is empty. -/
theorem streams_nil (h : AtBoundary r) : Streams E [] r :=
  ⟨fun _ => h, fun h => absurd h (by simp), fun h => absurd h (by simp), fun h => absurd h (by simp)⟩

theorem atBoundary_of_nil (h : Streams E [] r) : AtBoundary r := h.empty rfl

/-- Holding a message depends on the key, the chaining value, the buffer and the counter alone. -/
theorem Streams.congr {r' : Regs} (h : Streams E m r) (hk : keySlice r' = keySlice r) (hx : r'.x = r.x)
    (hb : r'.buf = r.buf) (hc : r'.cnt = r.cnt) : Streams E m r' where
  empty h0 := ⟨hx.trans (h.empty h0).x, hb.trans (h.empty h0).buf, hc.trans (h.empty h0).cnt⟩
  count h0 := by rw [hc, h.count h0]
  buffer h0 := by rw [hb, h.buffer h0]
  chained h0 := by rw [hx, hk, h.chained h0]

theorem keySlice_appendBufByte (r : Regs) (b : Byte) : keySlice (appendBufByte r b) = keySlice r := rfl

theorem keySlice_retireBlock (E : Oracle) (r : Regs) : keySlice (retireBlock E r) = keySlice r := rfl

/-- One more byte where the buffer has room (10_state.md R29). -/
theorem streams_append_room (b : Byte) (h : Streams E m r) (hc : r.cnt ≠ 16) :
    Streams E (m ++ [b]) (appendBufByte r b) := by
  have hn : r.cnt.toNat ≠ 16 := fun e => hc (BitVec.eq_of_toNat_eq e)
  rcases Nat.eq_zero_or_pos m.length with h0 | h0
  · obtain rfl := List.eq_nil_of_length_eq_zero h0
    have hb := h.empty rfl
    refine ⟨fun e => absurd e (by simp), fun _ => ?_, fun _ => ?_, fun _ => ?_⟩
    · rw [appendBufByte_cnt, hb.cnt, List.nil_append, List.length_singleton]
      rfl
    · simp only [appendBufByte_buf, hb.cnt, hb.buf, ← blockOf_nil, List.nil_append, List.length_singleton]
      exact blockOf_snoc [] b
    · simp [hb.x, chain]
  · have hq : (m.length + 1 + 15) / 16 - 1 = (m.length + 15) / 16 - 1 := by have := h.count h0; omega
    have hl : (m.drop (16 * ((m.length + 15) / 16 - 1))).length = r.cnt.toNat := by
      rw [List.length_drop, h.count h0]
    refine ⟨fun e => absurd e (by simp), fun _ => ?_, fun _ => ?_, fun _ => ?_⟩
    · have := h.count h0
      rw [appendBufByte_cnt, BitVec.toNat_add, List.length_append, List.length_singleton, hq]
      simp only [BitVec.reduceToNat]
      omega
    · rw [appendBufByte_buf, h.buffer h0, ← hl, blockOf_snoc, List.length_append,
        List.length_singleton, hq, List.drop_append_of_le_length (by omega)]
    · rw [appendBufByte_x, h.chained h0, keySlice_appendBufByte, List.length_append, List.length_singleton, hq,
        chain_append _ _ _ _ _ (by omega)]

/-- One more byte where the buffer is full: the buffered block is chained first (10_state.md R29). -/
theorem streams_append_full (b : Byte) (h : Streams E m r) (hc : r.cnt = 16) :
    Streams E (m ++ [b]) (appendBufByte (retireBlock E r) b) := by
  have h0 : 0 < m.length := by
    rcases Nat.eq_zero_or_pos m.length with h0 | h0
    · rw [(h.empty h0).cnt] at hc; cases hc
    · exact h0
  have hn : m.length - 16 * ((m.length + 15) / 16 - 1) = 16 := by rw [← h.count h0, hc]; rfl
  have hq : (m.length + 1 + 15) / 16 - 1 = ((m.length + 15) / 16 - 1) + 1 := by omega
  refine ⟨fun e => absurd e (by simp), fun _ => ?_, fun _ => ?_, fun _ => ?_⟩
  · rw [List.length_append, List.length_singleton, hq, show m.length + 1 - 16 * ((m.length + 15) / 16 - 1 + 1) = 1 by omega]
    rfl
  · rw [List.length_append, List.length_singleton, hq, List.drop_append_of_le_length (by omega),
      List.drop_of_length_le (by omega)]
    simp only [appendBufByte_buf, retireBlock_buf, retireBlock_cnt, ← blockOf_nil]
    exact blockOf_snoc [] b
  · rw [appendBufByte_x, retireBlock_x, keySlice_appendBufByte, keySlice_retireBlock, List.length_append,
      List.length_singleton, hq, chain, chain_append _ _ _ _ _ (by omega), messageBlock_append _ _ _ (by omega),
      messageBlock_eq_drop, ← h.buffer h0, ← h.chained h0]
    rfl

/-- The last plaintext the engine forms is the one the algorithm forms (41_tag_computation.md R107). -/
theorem finalPlaintext_eq (h : Streams E m r) : finalPlaintext r = lastPlaintext E (keySlice r) r.k1 r.k2 m := by
  rcases Nat.eq_zero_or_pos m.length with h0 | h0
  · obtain rfl := List.eq_nil_of_length_eq_zero h0
    have hb := h.empty rfl
    rw [finalPlaintext, lastPlaintext, lastBlockOf_partial _ _ _ (.inl rfl), lastBlockOfBuf, hb.cnt, hb.buf, hb.x,
      if_neg (by decide), ← blockOf_nil]
    congr 1
  · have hx : r.x = chain E (keySlice r) m (blockCount m - 1) := by
      rw [h.chained h0, blockCount, if_neg (by omega)]
    rw [finalPlaintext, lastPlaintext, hx]
    congr 1
    have hcount := h.count h0
    by_cases hf : m.length % 16 = 0
    · have hc : r.cnt = 16 := BitVec.eq_of_toNat_eq (by rw [hcount]; simp only [BitVec.reduceToNat]; omega)
      rw [lastBlockOfBuf, if_pos hc, lastBlockOf_full _ _ _ h0 hf, h.buffer h0,
        show 16 * ((m.length + 15) / 16 - 1) = m.length - 16 by omega, slice,
        show m.length - (m.length - 16) = 16 by omega, blockOf_take]
    · have hc : r.cnt ≠ 16 := by
        intro e
        rw [e] at hcount
        simp only [BitVec.reduceToNat] at hcount
        omega
      have hl : (m.drop (m.length - m.length % 16)).length = m.length % 16 := by rw [List.length_drop]; omega
      rw [lastBlockOfBuf, if_neg hc, lastBlockOf_partial _ _ _ (.inr hf), hcount, h.buffer h0,
        show 16 * ((m.length + 15) / 16 - 1) = m.length - m.length % 16 by omega,
        show m.length - (m.length - m.length % 16) = m.length % 16 by omega, slice,
        show m.length - (m.length - m.length % 16) = m.length % 16 by omega,
        List.take_of_length_le (by omega)]
      congr 1
      have := pad_blockOf (m.drop (m.length - m.length % 16)) (by omega)
      rwa [hl] at this

end

end Sys2Proof.Machine
end

