-- ==== Sys2Proof/Laws/PerInstr.lean ====
section
/-! SUPPORT. Statements about each command as syntax, one lemma per constructor. -/

namespace Sys2Proof.Laws.Format

/-- The fields a command is encoded with form a legal command word of the format its opcode has (30_encoding.md R61). -/
def Statement (i : Instr) : Prop := i.fields.wf = true ∧ i.fields.format = i.format

theorem nop : Statement .nop := by unfold Statement; decide
theorem clr : Statement .clr := by unfold Statement; decide
theorem keyb (b : Byte) : Statement (.keyb b) := ⟨rfl, rfl⟩
theorem init : Statement .init := by unfold Statement; decide
theorem msgb (b : Byte) : Statement (.msgb b) := ⟨rfl, rfl⟩
theorem final : Statement .final := by unfold Statement; decide
theorem rdtag : Statement .rdtag := by unfold Statement; decide
theorem stat : Statement .stat := by unfold Statement; decide

end Sys2Proof.Laws.Format
end

