-- ==== Sys2Proof/Laws/Step.lean ====
section
/-! SUPPORT. What one step can do, said once: by the cue, and by whether the engine has a command to run. -/

namespace Sys2Proof.Machine

/-- A step under an empty schedule is a step under `go`. -/
theorem step_of_cues_nil {s : State} (h : s.cues = []) : step s = stepGo s := by
  simp [step, nextCue, h, stepCue]

/-- A step uses up the first cue. -/
theorem step_of_cues_cons {s : State} {c : Cue} {cs : List Cue} (h : s.cues = c :: cs) :
    step s = stepCue c { s with cues := cs } := by
  simp [step, nextCue, h]

theorem advance_inFlight {s : State} {f : InFlight} (h : s.inFlight = some f) :
    advance s = .next ({ s with inFlight := none }.commit (wordEffect Config.E f.word s.regs)) := by
  simp [advance, h, runWord_eq_commit]

theorem advance_accept {s : State} {w : Word16} {ws : List Word16} (h : s.inFlight = none) (hc : s.cmds = w :: ws) :
    advance s = .next ({ s with cmds := ws }.commit (wordEffect Config.E w s.regs)) := by
  simp [advance, h, hc, runWord_eq_commit]

theorem advance_idle {s : State} (h : s.inFlight = none) (hc : s.cmds = []) : advance s = .next s := by
  simp [advance, h, hc]

/-- Inversion of `advance`: it finishes the command in progress, or runs the next word, or stays idle. -/
theorem advance_cases (s : State) :
    (∃ f, s.inFlight = some f ∧
      advance s = .next ({ s with inFlight := none }.commit (wordEffect Config.E f.word s.regs))) ∨
    (∃ w ws, s.inFlight = none ∧ s.cmds = w :: ws ∧
      advance s = .next ({ s with cmds := ws }.commit (wordEffect Config.E w s.regs))) ∨
    (s.inFlight = none ∧ s.cmds = [] ∧ advance s = .next s) := by
  rcases Option.eq_none_or_eq_some s.inFlight with hf | ⟨f, hf⟩
  · by_cases hc : s.cmds = []
    · exact .inr (.inr ⟨hf, hc, advance_idle hf hc⟩)
    · obtain ⟨w, ws, hc⟩ := List.exists_cons_of_ne_nil hc
      exact .inr (.inl ⟨w, ws, hf, hc, advance_accept hf hc⟩)
  · exact .inl ⟨f, hf, advance_inFlight hf⟩

theorem acceptAndHold_busy {s : State} {f : InFlight} (h : s.inFlight = some f) : acceptAndHold s = s := by
  simp [acceptAndHold, h]

theorem acceptAndHold_accept {s : State} {w : Word16} {ws : List Word16} (h : s.inFlight = none)
    (hc : s.cmds = w :: ws) :
    acceptAndHold s = { s with cmds := ws, inFlight := some { word := w, req := wordRequest w s.regs } } := by
  simp [acceptAndHold, h, hc]

theorem acceptAndHold_idle {s : State} (h : s.inFlight = none) (hc : s.cmds = []) : acceptAndHold s = s := by
  simp [acceptAndHold, h, hc]

theorem stepRspStall_waiting {s : State} {p : Response} (h : s.rspPort = some p) : stepRspStall s = .next s := by
  simp [stepRspStall, h]

theorem stepRspStall_free {s : State} (h : s.rspPort = none) : stepRspStall s = advance s := by
  simp [stepRspStall, h]

/-- With nothing but commands at work, a step runs the next word and its response is taken. -/
theorem step_quiet {s : State} {w : Word16} {ws : List Word16} (q : Quiet s) (hc : s.cmds = w :: ws) :
    step s = .next { s with
      regs := (wordEffect Config.E w s.regs).regs
      cmds := ws
      rsps := s.rsps ++ [(wordEffect Config.E w s.regs).rsp]
      calls := s.calls ++ (wordEffect Config.E w s.regs).calls } := by
  have hr := q.noResponseWaiting
  rw [step_of_cues_nil q.onlyGo, stepGo, takeResponse_of_none s hr, advance_accept q.noCommandInProgress hc]
  simp [State.takeResponse, State.commit, hr]

/-- `go`: a waiting response is taken, the engine advances, its response is taken. -/
theorem stepGo_next (s : State) :
    ∃ u, advance s.takeResponse = .next u ∧ stepGo s = .next u.takeResponse := by
  rcases advance_cases s.takeResponse with ⟨_, _, h⟩ | ⟨_, _, _, _, h⟩ | ⟨_, _, h⟩ <;>
    exact ⟨_, h, by rw [stepGo, h]; rfl⟩

/-- What holding does to each part of the state that a command writes: nothing. -/
theorem acceptAndHold_frame (s : State) :
    (acceptAndHold s).regs = s.regs ∧ (acceptAndHold s).cues = s.cues ∧ (acceptAndHold s).rspPort = s.rspPort ∧
      (acceptAndHold s).rsps = s.rsps ∧ (acceptAndHold s).calls = s.calls := by
  unfold acceptAndHold
  split
  · simp
  · split <;> simp

/-- The registers after `advance`: the same, or as the next word leaves them. -/
theorem advance_regs {s u : State} (h : advance s = .next u) :
    u.regs = s.regs ∨ ∃ w, nextWord s = some w ∧ u.regs = (wordEffect Config.E w s.regs).regs := by
  rcases advance_cases s with ⟨f, hf, e⟩ | ⟨w, ws, hf, hc, e⟩ | ⟨_, _, e⟩ <;> (rw [e] at h; cases h)
  · exact .inr ⟨f.word, by simp [nextWord, hf], by simp⟩
  · exact .inr ⟨w, by simp [nextWord, hf, hc], by simp⟩
  · exact .inl rfl

/-- The registers after a step under a cue: the same, the reset values under `rst`, or as the next word leaves them. -/
theorem stepCue_regs {c : Cue} {s t : State} (h : stepCue c s = .next t) :
    t.regs = s.regs ∨ (c = .rst ∧ t.regs = Regs.reset) ∨
      ∃ w, nextWord s = some w ∧ t.regs = (wordEffect Config.E w s.regs).regs := by
  cases c with
  | go =>
    obtain ⟨u, hu, hg⟩ := stepGo_next s
    rw [stepCue, hg] at h
    cases h
    exact (advance_regs hu).imp id .inr
  | hold => cases h; exact .inl (acceptAndHold_frame _).1
  | rspStall =>
    rcases Option.eq_none_or_eq_some s.rspPort with hp | ⟨p, hp⟩
    · rw [stepCue, stepRspStall_free hp] at h
      exact (advance_regs h).imp id .inr
    · rw [stepCue, stepRspStall_waiting hp] at h
      cases h
      exact .inl rfl
  | lateAnswer => cases h; exact .inl rfl
  | rst => cases h; exact .inr (.inl ⟨rfl, rfl⟩)

/-- The registers after a step: the same, the reset values if `rst` was asserted, or as the next word leaves them. -/
theorem step_regs {s t : State} (h : step s = .next t) :
    t.regs = s.regs ∨ (s.cues.head? = some .rst ∧ t.regs = Regs.reset) ∨
      ∃ w, nextWord s = some w ∧ t.regs = (wordEffect Config.E w s.regs).regs := by
  rcases hc : s.cues with _ | ⟨c, cs⟩
  · rw [step_of_cues_nil hc] at h
    exact (stepCue_regs (c := .go) h).imp id (.imp (fun x => by cases x.1) id)
  · rw [step_of_cues_cons hc] at h
    exact (stepCue_regs h).imp id (.imp (fun x => ⟨by rw [x.1]; rfl, x.2⟩) id)

end Sys2Proof.Machine
end

