-- ==== Sys2Proof/Laws/Run.lean ====
section
/-! SUPPORT. The host's `run`, one step at a time, and over the words presented to a quiet engine. -/

namespace Sys2Proof.Machine

theorem core_run_zero (s : State) : core.run 0 s = .next s := rfl

/-- A run goes through its first step. -/
theorem core_run_succ (n : Nat) {s t : State} (h : step s = .next t) : core.run (n + 1) s = core.run n t := by
  have e := Host.Core.run.eq_2 core s n
  rw [show core.step s = _ from h] at e
  exact e

theorem core_run_one (s : State) : core.run 1 s = step s := by
  refine (Host.Core.run.eq_2 core s 0).trans ?_
  show _ = core.step s
  cases core.step s <;> rfl

/-- A run of `m + n` steps is a run of `n` steps from where `m` steps lead. -/
theorem core_run_add (m n : Nat) {s t : State} (h : core.run m s = .next t) :
    core.run (m + n) s = core.run n t := by
  induction m generalizing s with
  | zero => rw [core_run_zero] at h; cases h; simp
  | succ k ih =>
    have e := Host.Core.run.eq_2 core s k
    cases hs : core.step s with
    | next u =>
      rw [hs] at e
      rw [show k + 1 + n = (k + n) + 1 by omega, core_run_succ _ hs]
      exact ih (e.symm.trans h)
    | fault r => rw [hs] at e; cases e.symm.trans h
    | refused r => rw [hs] at e; cases e.symm.trans h

/-- The registers a list of command words leaves. -/
def regsAfter (E : Oracle) : List Word16 → Regs → Regs
  | [], r => r
  | w :: ws, r => regsAfter E ws (wordEffect E w r).regs

/-- The responses to a list of command words. -/
def responsesTo (E : Oracle) : List Word16 → Regs → List Response
  | [], _ => []
  | w :: ws, r => (wordEffect E w r).rsp :: responsesTo E ws (wordEffect E w r).regs

/-- The oracle calls a list of command words makes. -/
def callsOf (E : Oracle) : List Word16 → Regs → List OracleCall
  | [], _ => []
  | w :: ws, r => (wordEffect E w r).calls ++ callsOf E ws (wordEffect E w r).regs

section
variable (E : Oracle) (ws vs : List Word16) (r : Regs)

theorem regsAfter_append : regsAfter E (ws ++ vs) r = regsAfter E vs (regsAfter E ws r) := by
  induction ws generalizing r with
  | nil => rfl
  | cons w ws ih => exact ih _

theorem responsesTo_append :
    responsesTo E (ws ++ vs) r = responsesTo E ws r ++ responsesTo E vs (regsAfter E ws r) := by
  induction ws generalizing r with
  | nil => rfl
  | cons w ws ih => exact congrArg _ (ih _)

theorem callsOf_append : callsOf E (ws ++ vs) r = callsOf E ws r ++ callsOf E vs (regsAfter E ws r) := by
  induction ws generalizing r with
  | nil => rfl
  | cons w ws ih => rw [List.cons_append, callsOf, callsOf, ih, List.append_assoc]; rfl

@[simp] theorem length_responsesTo : (responsesTo E ws r).length = ws.length := by
  induction ws generalizing r with
  | nil => rfl
  | cons w ws ih => simp [responsesTo, ih]

end

/-- A quiet engine works off the words presented to it one by one. -/
theorem run_words (ws rest : List Word16) {s : State} (q : Quiet s) (h : s.cmds = ws ++ rest) :
    core.run ws.length s = .next { s with
      regs := regsAfter Config.E ws s.regs
      cmds := rest
      rsps := s.rsps ++ responsesTo Config.E ws s.regs
      calls := s.calls ++ callsOf Config.E ws s.regs } := by
  induction ws generalizing s with
  | nil =>
    rw [List.nil_append] at h
    subst h
    simp [core_run_zero, regsAfter, responsesTo, callsOf]
  | cons w ws ih =>
    have hs := step_quiet q (show s.cmds = w :: (ws ++ rest) by rw [h]; rfl)
    refine (core_run_succ ws.length hs).trans ((ih (s := { s with
      regs := (wordEffect Config.E w s.regs).regs
      cmds := ws ++ rest
      rsps := s.rsps ++ [(wordEffect Config.E w s.regs).rsp]
      calls := s.calls ++ (wordEffect Config.E w s.regs).calls }) ⟨q.1, q.2, q.3⟩ rfl).trans ?_)
    simp [regsAfter, responsesTo, callsOf]

end Sys2Proof.Machine
end

