-- ==== Sys2Proof/Tests/Slice0.lean ====
section
/-! SUPPORT. Tests of the model on values from 95_test_vectors.md, and for each statement with hypotheses a state that
meets them. -/

namespace Sys2Proof.Tests
open Sys2Proof Sys2Proof.Machine

/-! Ill-formed fields are refused, one for each check of WellFormed.lean. -/

theorem test_wf_reserved : CmdFields.wf ⟨0x2, 0xf, 0x2b⟩ = false := by decide
theorem test_wf_opcode : CmdFields.wf ⟨0x8, 0x0, 0x00⟩ = false := by decide
theorem test_wf_immediate : CmdFields.wf ⟨0x3, 0x0, 0x01⟩ = false := by decide
theorem test_wf_legal : CmdFields.wf ⟨0x4, 0x0, 0x80⟩ = true := by decide

/-! One word per command, written out bit by bit from R63, and illegal words (V10). -/

theorem test_decode_nop : decode 0b0000_0000_0000_0000 = .legal .nop := by decide
theorem test_decode_clr : decode 0b0001_0000_0000_0000 = .legal .clr := by decide
theorem test_decode_keyb : decode 0b0010_0000_0010_1011 = .legal (.keyb 0x2b) := by decide
theorem test_decode_init : decode 0b0011_0000_0000_0000 = .legal .init := by decide
theorem test_decode_msgb : decode 0b0100_0000_1000_0000 = .legal (.msgb 0x80) := by decide
theorem test_decode_final : decode 0b0101_0000_0000_0000 = .legal .final := by decide
theorem test_decode_rdtag : decode 0b0110_0000_0000_0000 = .legal .rdtag := by decide
theorem test_decode_stat : decode 0b0111_0000_0000_0000 = .legal .stat := by decide
theorem test_decode_illegal_opcode : decode 0b1111_0000_1111_0000 = .illegal .undefinedOpcode := by decide
theorem test_decode_illegal_reserved : decode 0b0100_1000_0000_0000 = .illegal .reservedBits := by decide
theorem test_decode_illegal_immediate : decode 0b0111_0000_0001_0000 = .illegal .strayImmediate := by decide
theorem test_opcode_table_selects_decoded_row :
    (opcodeTable.filter fun row => row.selects 0x406b).map (·.mnemonic) = ["MSGB"] := by decide

/-! The host's two entry points. -/

theorem test_table_word : decodeTableWord 16 0x406b = some (.msgb 0x6b) := by decide
theorem test_table_word_illegal : decodeTableWord 16 0xffff = none := by decide
theorem test_fetch_word_runs_first :
    (nextState? (step (State.reset.withFetchWord 16 0x202b))).map (fun t => (t.regs.klen, t.rsps)) = some (1, [.ok]) := by
  decide

/-! The assembler (R67, R68). -/

theorem test_assemble_comment_and_blank_line :
    assemble? "KEYB 0x2b ; first key byte\n\nINIT".toList = some [0x202b, 0x3000] := by decide
theorem test_assemble_construct : assemble? "CONSTRUCT 2b7e".toList = some [0x1000, 0x202b, 0x207e, 0x3000] := by decide
theorem test_assemble_calculate_empty : assemble? "CALCULATE".toList = some [0x5000] := by decide
theorem test_assemble_lower_case_refused : assemble? "nop".toList = none := by decide

/-! The block utilities and the functions, on V2, V4, V5. -/

/-- The bytes `0 1 2 ..`. -/
def seqBytes (n : Nat) : List Byte := (List.range n).map fun i => BitVec.ofNat 8 i

/-- V2: only the top bit; a rotation would give `..01`. -/
theorem test_dbl_top_bit_comes_back_as_0x87 : dbl (zero16.set 0 0x80) = zero16.set 15 0x87 := by decide

/-- V2: the carries of the key's own subkeys. -/
theorem test_dbl_subkey :
    dbl #v[0xfb, 0xee, 0xd6, 0x18, 0x35, 0x71, 0x33, 0x66, 0x7c, 0x85, 0xe0, 0x8f, 0x72, 0x36, 0xa8, 0xde] =
      #v[0xf7, 0xdd, 0xac, 0x30, 0x6a, 0xe2, 0x66, 0xcc, 0xf9, 0x0b, 0xc1, 0x1e, 0xe4, 0x6d, 0x51, 0x3b] := by decide

/-- V2: 15 bytes leave room for the pad byte alone. -/
theorem test_pad_fifteen : pad (Vector.ofFn fun i => if i.val < 15 then 0x11 else 0) 15 =
    Vector.ofFn fun i => if i.val < 15 then 0x11 else 0x80 := by decide

/-- V4: both conditions of `DERIVE` hold. -/
theorem test_derive_both_top_bits :
    derive eToy1 (List.replicate 16 0xff) =
      (#v[0xfe, 0x00, 0x02, 0x04, 0x06, 0x08, 0x0a, 0x0c, 0x0e, 0x10, 0x12, 0x14, 0x16, 0x18, 0x1a, 0x9b],
       #v[0xfc, 0x00, 0x04, 0x08, 0x0c, 0x10, 0x14, 0x18, 0x1c, 0x20, 0x24, 0x28, 0x2c, 0x30, 0x35, 0xb1]) := by decide

/-- V5: a 33-byte message, three blocks, the last of one byte. -/
theorem test_cmac_partial_last_block : cmacOf eToy1 (seqBytes 16) (seqBytes 33) =
    #v[0x99, 0x0d, 0x11, 0x41, 0x39, 0x3d, 0x29, 0x69, 0x69, 0x5d, 0x81, 0x71, 0x59, 0x6d, 0x69, 0x49] := by decide

/-- V5: a 32-byte message under a 24-byte key, the last block full. -/
theorem test_cmac_full_last_block : cmacOf eToy1 (seqBytes 24) (seqBytes 32) =
    #v[0x30, 0x34, 0x34, 0x38, 0x38, 0x3c, 0x3c, 0x28, 0x41, 0x39, 0x39, 0x35, 0x41, 0x31, 0x41, 0x3d] := by decide

/-! The commands, one step each. -/

/-- A keyed engine under the key `seqBytes 16` and the oracle `E_TOY1` (its subkeys from V4), with `m`, of at most 16
bytes, in its buffer. -/
def toyRegs (m : List Byte) : Regs :=
  { Regs.reset with
    key := Vector.ofFn fun i => if i.val < 16 then BitVec.ofNat 8 i.val else 0
    klen := 16, keyed := true
    k1 := #v[0x00, 0x04, 0x08, 0x0c, 0x10, 0x14, 0x18, 0x1c, 0x20, 0x24, 0x28, 0x2c, 0x30, 0x34, 0x38, 0x3c]
    k2 := #v[0x00, 0x08, 0x10, 0x18, 0x20, 0x28, 0x30, 0x38, 0x40, 0x48, 0x50, 0x58, 0x60, 0x68, 0x70, 0x78]
    buf := blockOf m, cnt := BitVec.ofNat 5 m.length }

theorem test_nop_leaves_cnt : (nopEffect (toyRegs (seqBytes 5))).regs.cnt = 5 := by decide
theorem test_clr_wipes : (clrEffect (toyRegs (seqBytes 5))).regs.status = 0x0000 := by decide

/-- R83: the 32nd byte is stored. -/
theorem test_keyb_last_byte_stored :
    (keybEffect 0x7f { Regs.reset with klen := 31 }).regs = { Regs.reset with key := zero32.set 31 0x7f, klen := 32 } := by
  decide

/-- R83: the 33rd and later bytes change only `KLEN`. -/
theorem test_keyb_saturates : (keybEffect 0x7f { Regs.reset with klen := 33 }).regs = { Regs.reset with klen := 33 } := by
  decide

/-- V4: the subkeys `INIT` writes. -/
theorem test_init_subkeys :
    (initEffect eToy1 { toyRegs [] with keyed := false, k1 := zero16, k2 := zero16 }).regs = toyRegs [] := by decide

/-- R172: the key of a failed attempt is wiped. -/
theorem test_init_bad_length_wipes :
    initEffect eToy1 { Regs.reset with key := zero32.set 0 0x2b, klen := 17 } =
      ⟨Regs.reset, [], .error .invalidKeySize⟩ := by decide

/-- R105: the 17th byte chains the first block. -/
theorem test_msgb_seventeenth_byte :
    ((msgbEffect eToy1 0x10 (toyRegs (seqBytes 16))).regs.cnt, (msgbEffect eToy1 0x10 (toyRegs (seqBytes 16))).regs.buf[0],
      (msgbEffect eToy1 0x10 (toyRegs (seqBytes 16))).calls.length) = (1, 0x10, 1) := by decide

theorem test_msgb_sixteenth_byte : (msgbEffect eToy1 0x0f (toyRegs (seqBytes 15))) =
    ⟨toyRegs (seqBytes 16), [], .ok⟩ := by decide

/-- V5: the tag of the empty message. -/
theorem test_final_empty : (finalEffect eToy1 (toyRegs [])).rsp =
    .tag #v[0x08, 0x12, 0x1c, 0x26, 0x30, 0x3a, 0x44, 0x4e, 0x48, 0x62, 0x5c, 0x76, 0x70, 0x8a, 0x84, 0x9e] := by decide

/-- V5: the tag of a full block takes `K1`. -/
theorem test_final_full_block : (finalEffect eToy1 (toyRegs (seqBytes 16))).rsp =
    .tag #v[0x05, 0x0c, 0x0f, 0x1a, 0x19, 0x20, 0x23, 0x36, 0x2d, 0x34, 0x37, 0x42, 0x41, 0x48, 0x4b, 0x1e] := by decide

theorem test_rdtag_zero_tag_is_a_tag : (rdtagEffect { toyRegs [] with tagv := true }).rsp = .tag zero16 := by decide
theorem test_rdtag_no_tag : (rdtagEffect (toyRegs [])).rsp = .error .noTag := by decide

/-- V11: a 32-byte key, a tag held, 16 bytes of the next message. -/
theorem test_stat_fields : ({ toyRegs (seqBytes 16) with klen := 32, tagv := true } : Regs).status = 0x2083 := by decide

/-- V11: the two data bytes of a `STATUS` response. -/
theorem test_stat_response_data : (Response.status 0x100b).data = (zero16.set 14 0x10).set 15 0x0b := by decide

/-! States that meet the hypotheses of the statements. -/

/-- The engine right after reset with some words presented to it. -/
def presenting (ws : List Word16) : State := { State.reset with cmds := ws }

theorem quiet_presenting (ws : List Word16) : Quiet (presenting ws) := ⟨rfl, rfl, rfl⟩

/-- Registers after reset and `n` key bytes `0x00`. -/
def givenKey (n : Nat) : Regs := { Regs.reset with klen := BitVec.ofNat 6 n }

/-- A keyed engine at a message boundary, under a key of sixteen zero bytes and the open oracle. -/
def keyedRegs : Regs :=
  { givenKey 16 with
    keyed := true, k1 := (derive Config.E (List.replicate 16 0)).1, k2 := (derive Config.E (List.replicate 16 0)).2 }

/-- The same in the middle of a message of at most 16 bytes. -/
def midRegs (m : List Byte) : Regs := { keyedRegs with buf := blockOf m, cnt := BitVec.ofNat 5 m.length }

theorem keySlice_keyedRegs : keySlice keyedRegs = List.replicate 16 0 :=
  (keySlice_congr (r' := givenKey 16) rfl rfl).trans (by decide)

theorem streams_midRegs (m : List Byte) (h : m.length ≤ 16) : Streams Config.E m (midRegs m) := by
  have hc : (BitVec.ofNat 5 m.length).toNat = m.length := by rw [BitVec.toNat_ofNat, Nat.mod_eq_of_lt (by omega)]
  refine ⟨fun h0 => ?_, fun h0 => ?_, fun h0 => ?_, fun h0 => ?_⟩
  · obtain rfl := List.eq_nil_of_length_eq_zero h0
    exact ⟨rfl, blockOf_nil, rfl⟩
  · rw [show (m.length + 15) / 16 - 1 = 0 by omega]
    exact hc
  · rw [show (m.length + 15) / 16 - 1 = 0 by omega]
    rfl
  · rw [show (m.length + 15) / 16 - 1 = 0 by omega]
    rfl

theorem holds_midRegs (m : List Byte) (h : m.length ≤ 16) : HoldsMessage Config.E m (midRegs m) :=
  ⟨streams_midRegs m h, fun h' => absurd (show true = false from h') (by decide)⟩

theorem regsInv_midRegs (m : List Byte) (h : m.length ≤ 16) : RegsInv Config.E (midRegs m) := by
  have hc : (BitVec.ofNat 5 m.length).toNat = m.length := by rw [BitVec.toNat_ofNat, Nat.mod_eq_of_lt (by omega)]
  refine ⟨?_, fun i _ => ?_, fun _ => ?_, fun _ => ?_, fun h' => ?_, ?_, fun i hi => ?_, fun _ => rfl⟩
  · show (16 : BitVec 6).toNat ≤ 33
    decide
  · show (Vector.replicate 32 0 : KeyArray)[i.val] = 0
    simp
  · show (16 : BitVec 6).toNat ∈ Config.keyLengths
    decide
  · rw [show keySlice (midRegs m) = keySlice keyedRegs from rfl, keySlice_keyedRegs]
    rfl
  · exact absurd (show true = false from h') (by decide)
  · exact hc.trans_le h
  · show (blockOf m)[i.val] = 0
    rw [getElem_blockOf, List.getD_eq_default _ _ (by rw [← hc]; exact hi)]

/-- A keyed engine in the middle of a message, with some words presented to it. -/
def midState (m : List Byte) (ws : List Word16) : State := { presenting ws with regs := midRegs m }

theorem quiet_midState (m : List Byte) (ws : List Word16) : Quiet (midState m ws) := ⟨rfl, rfl, rfl⟩

theorem portsInv_idle {s : State} (hf : s.inFlight = none) (hc : s.calls = []) : PortsInv s :=
  ⟨fun f h => absurd h (by simp [hf]), fun _ => hf, fun c h => absurd h (by simp [hc])⟩

theorem inv_midState (m : List Byte) (ws : List Word16) (h : m.length ≤ 16) : (midState m ws).Inv :=
  ⟨regsInv_midRegs m h, ⟨m, holds_midRegs m h⟩, portsInv_idle rfl rfl⟩

theorem cmds_midState (m : List Byte) (ws : List Word16) : (midState m ws).cmds = ws := rfl

/-- A keyed engine at a boundary that holds a tag, with some words presented to it. -/
def taggedState (ws : List Word16) : State := { presenting ws with regs := { midRegs [] with tagv := true } }

theorem cmds_taggedState (ws : List Word16) : (taggedState ws).cmds = ws := rfl

theorem keySlice_taggedState (ws : List Word16) : keySlice (taggedState ws).regs = keySlice (midRegs []) :=
  keySlice_congr rfl rfl

theorem atBoundary_taggedState (ws : List Word16) : AtBoundary (taggedState ws).regs := ⟨rfl, blockOf_nil, rfl⟩

theorem inv_taggedState (ws : List Word16) : (taggedState ws).Inv := by
  have hr := regsInv_midRegs [] (by decide)
  refine ⟨⟨hr.1, hr.2, hr.3, fun h => ?_, fun h => ?_, hr.6, hr.7, hr.8⟩, ⟨[], streams_nil (atBoundary_taggedState ws), fun _ => rfl⟩,
    portsInv_idle rfl rfl⟩
  · rw [keySlice_taggedState]
    exact hr.4 rfl
  · exact absurd (show true = false from h) (by decide)

theorem atBoundary_midRegs_nil : AtBoundary (midRegs []) := ⟨rfl, blockOf_nil, rfl⟩

/-! Encoding. -/

theorem witness_IllegalWordsAreRefused :
    (decode 0x3001).isLegal = false ∧ (decode 0x2100).isLegal = false ∧ (decode 0x8000).isLegal = false := by decide

/-! State and reset. -/

/-- Each of the five groups of registers does change under a command that the rule lists for it. -/
theorem witness_RegistersWrittenBy :
    (keybEffect 0x01 Regs.reset).regs.klen ≠ Regs.reset.klen ∧
      (clrEffect (toyRegs [])).regs.keyed ≠ (toyRegs []).keyed ∧
      (msgbEffect eToy1 0x61 (toyRegs [])).regs.buf ≠ (toyRegs []).buf ∧
      (finalEffect eToy1 (toyRegs [])).regs.tagv ≠ (toyRegs []).tagv := by decide

theorem witness_KeyedTransitions_sets :
    ∃ t, step { presenting [encode .init] with regs := givenKey 16 } = .next t ∧ t.regs.keyed = true :=
  ⟨_, step_quiet ⟨rfl, rfl, rfl⟩ rfl, rfl⟩

theorem witness_KeyedTransitions_clears :
    (∃ t, step (midState [] [encode .clr]) = .next t ∧ t.regs.keyed = false) ∧
      ∃ t, step { midState [] [] with cues := [.rst] } = .next t ∧ t.regs.keyed = false :=
  ⟨⟨_, step_quiet (quiet_midState _ _) rfl, rfl⟩, ⟨_, rfl, rfl⟩⟩

theorem witness_KeyMaterialFixedWhileKeyed :
    (midState [] [encode (.keyb 0x01)]).regs.keyed = true ∧
      (midState [] [encode (.keyb 0x01)]).cues.head? ≠ some .rst ∧
      nextWord (midState [] [encode (.keyb 0x01)]) ≠ some (encode .clr) :=
  ⟨rfl, by simp [midState, presenting, State.reset], fun h => absurd (Option.some.inj h) (by decide)⟩

theorem witness_TagKeptUntilFinalOrClear :
    (midState [] [encode .rdtag]).cues.head? ≠ some .rst ∧
      nextWord (midState [] [encode .rdtag]) ≠ some (encode .clr) ∧
      nextWord (midState [] [encode .rdtag]) ≠ some (encode .final) :=
  ⟨by simp [midState, presenting, State.reset], fun h => absurd (Option.some.inj h) (by decide),
    fun h => absurd (Option.some.inj h) (by decide)⟩

/-- A keyed engine with a full buffer, about to chain it. -/
theorem witness_StepKeepsInvariant :
    (midState (List.replicate 16 0x61) [encode (.msgb 0x62)]).Inv ∧
      ∃ t, step (midState (List.replicate 16 0x61) [encode (.msgb 0x62)]) = .next t :=
  ⟨inv_midState _ _ (by decide), ⟨_, step_quiet (quiet_midState _ _) rfl⟩⟩

theorem witness_OpenMessageIsHeld :
    HoldsMessage Config.E [] (midState [] []).regs ∧
      HoldsMessage Config.E (List.replicate 16 0x61) (midState (List.replicate 16 0x61) []).regs :=
  ⟨holds_midRegs _ (by decide), holds_midRegs _ (by decide)⟩

/-- A `FINAL` that waits for the oracle. -/
def waiting (cs : List Cue) : State :=
  { midState [] [] with
    cues := cs, inFlight := some { word := encode .final, req := wordRequest (encode .final) (midRegs []) } }

theorem witness_ResetAbandonsCommand :
    (waiting [.rst]).cues = .rst :: [] ∧ (waiting [.lateAnswer zero16]).cues = .lateAnswer zero16 :: [] ∧
      (waiting [.hold]).inFlight = some { word := encode .final, req := wordRequest (encode .final) (midRegs []) } ∧
      (waiting [.hold]).cues = .hold :: [] := ⟨rfl, rfl, rfl, rfl⟩

theorem witness_OracleSilenceHasNoTimeout :
    ∃ s : State, s.inFlight = none ∧ s.rspPort = none ∧ s.cmds = encode .final :: [] ∧
      s.cues = List.replicate (2 + 1) .hold ++ [.rst] :=
  ⟨{ midState [] [encode .final] with cues := [.hold, .hold, .hold, .rst] }, rfl, rfl, rfl, rfl⟩

theorem witness_DelayChangesNothing :
    ∃ s : State, s.inFlight = none ∧ s.rspPort = none ∧ s.cmds ≠ [] ∧ s.cues = List.replicate 2 .hold ++ .go :: [] :=
  ⟨{ midState [] [encode .final] with cues := [.hold, .hold, .go] }, rfl, rfl, by simp [midState, presenting], rfl⟩

/-! Ports and sequencing. -/

theorem witness_StepRunsDecodedCommand :
    ((presenting [encode .stat]).inFlight = none ∧ (presenting [encode .stat]).cmds = encode .stat :: [] ∧
      (presenting [encode .stat]).cues = [] ∧ (presenting [encode .stat]).rspPort = none) ∧
    ({ presenting [encode .stat] with cues := [.go] } : State).cues = .go :: [] ∧
    ({ presenting [encode .stat] with cues := [.rspStall] } : State).cues = .rspStall :: [] ∧
    (waiting []).inFlight = some { word := encode .final, req := wordRequest (encode .final) (midRegs []) } ∧
    (waiting []).cues = [] ∧ (waiting [.go]).cues = .go :: [] :=
  ⟨⟨rfl, rfl, rfl, rfl⟩, rfl, rfl, rfl, rfl, rfl⟩

theorem witness_StepRunsDecodedCommand_illegal :
    (decode 0x3001).isLegal = false ∧ Quiet (presenting [0x3001]) ∧ (presenting [0x3001]).cmds = 0x3001 :: [] :=
  ⟨by decide, quiet_presenting _, rfl⟩

theorem witness_IdleKeepsAllState :
    ∃ s : State, s.inFlight = none ∧ s.cmds = [] ∧ s.rspPort = none ∧ s.cues = .hold :: [] ∧ Cue.hold ≠ .rst :=
  ⟨{ midState [0x61] [] with cues := [.hold] }, rfl, rfl, rfl, rfl, by decide⟩

theorem witness_OneResponsePerWord :
    Quiet (presenting [0x202b, 0xffff, 0x7000]) ∧ (presenting [0x202b, 0xffff, 0x7000]).cmds = [0x202b, 0xffff] ++ [0x7000] :=
  ⟨quiet_presenting _, rfl⟩

theorem witness_ResponsesAreNeverLost :
    ∃ s : State, s.rspPort = some .ok ∧ s.cues = .rspStall :: [] ∧ s.cues.head? ≠ some .rst :=
  ⟨{ presenting [0x0000] with rspPort := some .ok, cues := [.rspStall] }, rfl, rfl, by decide⟩

theorem witness_ReadsAreIdempotent : (Instr.rdtag = .nop ∨ Instr.rdtag = .stat ∨ Instr.rdtag = .rdtag) := by decide

/-! The commands. -/

theorem witness_NopRespondsOk : 0x0000 < (0x0001 : Word16).toNat ∧ (0x0fff : Word16).toNat ≤ 0x0fff := by decide

theorem witness_ClrResetsRegisters :
    Instr.keyb 0x01 ≠ .clr ∧ (midState [] []).regs.keyed = true ∧ (taggedState []).regs.tagv = true :=
  ⟨by decide, rfl, rfl⟩

/-- `KLEN` at 31, 32 and 33, and a keyed engine. -/
theorem witness_KeybAppendsKeyByte :
    ((givenKey 31).keyed = false ∧ (givenKey 31).klen.toNat < 32) ∧
      ((givenKey 32).keyed = false ∧ 32 ≤ (givenKey 32).klen.toNat) ∧
      ((givenKey 33).keyed = false ∧ 32 ≤ (givenKey 33).klen.toNat) ∧ keyedRegs.keyed = true :=
  ⟨by decide, by decide, by decide, rfl⟩

/-- `KLEN` at the three legal lengths and beside them, and a keyed engine. -/
theorem witness_InitConstructs :
    (∀ n ∈ [16, 24, 32], (givenKey n).keyed = false ∧ (givenKey n).klen.toNat ∈ [16, 24, 32]) ∧
      (∀ n ∈ [0, 15, 17, 23, 25, 31, 33], (givenKey n).keyed = false ∧ (givenKey n).klen.toNat ∉ [16, 24, 32]) ∧
      keyedRegs.keyed = true :=
  ⟨by decide, by decide, rfl⟩

/-- `CNT` at 0, 15 and 16 on a keyed engine, and an unkeyed engine. -/
theorem witness_MsgbAppendsMessageByte :
    Regs.reset.keyed = false ∧ ((midRegs []).keyed = true ∧ (midRegs []).cnt.toNat < 16) ∧
      ((midRegs (List.replicate 15 0x61)).keyed = true ∧ (midRegs (List.replicate 15 0x61)).cnt.toNat < 16) ∧
      ((midRegs (List.replicate 16 0x61)).keyed = true ∧ (midRegs (List.replicate 16 0x61)).cnt = 16) :=
  ⟨rfl, ⟨rfl, Nat.zero_lt_succ 15⟩, ⟨rfl, Nat.lt_succ_self 15⟩, ⟨rfl, rfl⟩⟩

/-- A full buffer with `K1`, and buffers of 0 and 15 bytes, padded, with `K2`. -/
theorem witness_FinalGivesTag :
    Regs.reset.keyed = false ∧
      (let r := midRegs (List.replicate 16 0x61)
       r.keyed = true ∧ ∃ last, r.cnt = 16 ∧ last = xor16 r.buf r.k1) ∧
      ∀ n ∈ [0, 15],
        let r := midRegs (List.replicate n 0x61)
        r.keyed = true ∧ ∃ last, r.cnt.toNat < 16 ∧ last = xor16 (pad r.buf r.cnt.toNat) r.k2 := by
  refine ⟨rfl, ⟨rfl, _, rfl, rfl⟩, fun n hn => ⟨rfl, _, ?_, rfl⟩⟩
  simp only [List.mem_cons, List.not_mem_nil, or_false] at hn
  rcases hn with rfl | rfl
  · exact Nat.zero_lt_succ 15
  · exact Nat.lt_succ_self 15

theorem witness_RdtagReturnsTag : Regs.reset.tagv = false ∧ ({ keyedRegs with tagv := true } : Regs).tagv = true :=
  ⟨rfl, rfl⟩

/-- Each error is given by some word in some state. -/
theorem witness_ErrorsAreExactlyThese :
    (wordEffect eToy1 0x3001 Regs.reset).rsp = .error .illegalCmd ∧
      (wordEffect eToy1 0x5000 Regs.reset).rsp = .error .badState ∧
      (wordEffect eToy1 0x2000 (toyRegs [])).rsp = .error .badState ∧
      (wordEffect eToy1 0x6000 Regs.reset).rsp = .error .noTag ∧
      (wordEffect eToy1 0x3000 Regs.reset).rsp = .error .invalidKeySize := by decide

/-- A `FINAL` makes a request. -/
theorem witness_RequestsCarryEngineKey :
    ∃ c, c ∈ (effect eToy1 .final (toyRegs [])).calls := ⟨_, List.mem_singleton.2 rfl⟩

theorem witness_TagPathHasNoError : (midState [0x61] []).regs.keyed = true := rfl

/-- Two states of one shape with different keys, one word; and a word that answers with a tag. -/
theorem witness_ResponsesHideSecrets :
    (presenting []).regs.shape = ({ presenting [] with regs := { Regs.reset with key := zero32.set 0 1 } } : State).regs.shape ∧
      (nopEffect Regs.reset).rsp.tag? = none ∧
      (rdtagEffect { toyRegs [] with tagv := true }).rsp.tag? = some zero16 := by decide

/-- Two engines under different keys, with different message bytes presented, one command in progress in each. -/
theorem witness_SequencingIgnoresData :
    ∃ s t : State, SameButData s t ∧ s ≠ t ∧ s.cmds ≠ t.cmds := by
  refine ⟨{ presenting [0x2061] with inFlight := some ⟨0x2001, none⟩ },
    { presenting [0x2062] with
      regs := { Regs.reset with key := zero32.set 0 1 }, inFlight := some ⟨0x2002, none⟩ }, ⟨by decide, ?_, rfl, ?_, rfl, rfl, rfl⟩, by decide, by decide⟩
  · exact .cons (by unfold SameKind; decide) .nil
  · exact ⟨by unfold SameKind; decide, rfl⟩

/-! The functions. -/

theorem witness_DoublingSelectsByMask :
    ((0xff : Byte) = if msb (zero16.set 0 0x80) then 0xff else 0x00) ∧
      ((0x00 : Byte) = if msb (zero16.set 0 0x7f) then 0xff else 0x00) := by decide

/-- The two largest and smallest values about the boundary `2^127`. -/
theorem witness_DoublingIsInvertible :
    val ((Vector.replicate 16 0xff).set 0 0x7f) < 2 ^ 127 ∧ 2 ^ 127 ≤ val (zero16.set 0 0x80) := by decide

theorem witness_PaddingBytes :
    (0 < 16 ∧ ∀ (i : Nat) (hi : i < 16), 0 ≤ i → zero16[i] = 0x00) ∧
      (15 < 16 ∧ ∀ (i : Nat) (hi : i < 16), 15 ≤ i → (blockOf (seqBytes 15))[i] = 0x00) :=
  ⟨⟨by decide, by decide⟩, by decide, by decide⟩

/-- Lengths 16 and 32 in the first case; 0, 1, 15 and 17 in the second. -/
theorem witness_LastBlockAndSubkey :
    (∀ n ∈ [16, 32], 0 < (seqBytes n).length ∧ (seqBytes n).length % 16 = 0) ∧
      ∀ n ∈ [0, 1, 15, 17], (seqBytes n).length = 0 ∨ (seqBytes n).length % 16 ≠ 0 := by decide

/-- A message of two bytes with a refused `KEYB` and a `STAT` in between. -/
theorem witness_SerialTagIsCmac (rest : List Word16) :
    ∃ s : State, ∃ ws : List Word16, Quiet s ∧ s.regs.keyed = true ∧ AtBoundary s.regs ∧
      (∀ w ∈ ws, w ≠ encode .clr ∧ w ≠ encode .final) ∧ s.cmds = ws ++ encode .final :: rest ∧ messageOf ws = [0x61, 0x62] :=
  ⟨midState [] _, [0x4061, 0x2001, 0x7000, 0x4062], quiet_midState _ _, rfl, atBoundary_midRegs_nil,
    by simp [show encode .clr = 0x1000 by decide, show encode .final = 0x5000 by decide], cmds_midState _ _, by decide⟩

theorem witness_MessageOracleRequests (m : List Byte) :
    ∃ s : State, Quiet s ∧ s.regs.keyed = true ∧ AtBoundary s.regs ∧ s.cmds = (calculateCommands m).map encode :=
  ⟨midState [] _, quiet_midState _ _, rfl, atBoundary_midRegs_nil, cmds_midState _ _⟩

/-- Two engines under one key, one of which holds a tag already. -/
theorem witness_TagIgnoresHistory (m : List Byte) :
    ∃ s s' : State, s.Inv ∧ s'.Inv ∧ Quiet s ∧ Quiet s' ∧ s.regs.keyed = true ∧ s'.regs.keyed = true ∧
      AtBoundary s.regs ∧ AtBoundary s'.regs ∧ keySlice s.regs = keySlice s'.regs ∧
      s.cmds = (calculateCommands m).map encode ∧ s'.cmds = (calculateCommands m).map encode ∧
      s.regs.tagv ≠ s'.regs.tagv :=
  ⟨midState [] _, taggedState _, inv_midState _ _ (by decide), inv_taggedState _, quiet_midState _ _, ⟨rfl, rfl, rfl⟩, rfl, rfl,
    atBoundary_midRegs_nil, atBoundary_taggedState _, (keySlice_taggedState _).symm, cmds_midState _ _, cmds_taggedState _,
    by show false ≠ true; decide⟩

/-- V5: two messages of three blocks that differ in block 1 alone, under the identity. -/
theorem witness_OneBlockChangesTag :
    IsPermOracle eId ∧ (seqBytes 16).length ∈ [16, 24, 32] ∧
      (seqBytes 33).length = ((seqBytes 33).set 20 0x15).length ∧
      slice (seqBytes 33) (16 * 1) (16 * (1 + 1)) ≠ slice ((seqBytes 33).set 20 0x15) (16 * 1) (16 * (1 + 1)) ∧
      ∀ i, i ≠ 1 → slice (seqBytes 33) (16 * i) (16 * (i + 1)) = slice ((seqBytes 33).set 20 0x15) (16 * i) (16 * (i + 1)) := by
  refine ⟨fun _ _ => Function.bijective_id, by decide, by decide, by decide, fun i hi => ?_⟩
  rcases i with _ | _ | _ | i
  · decide
  · exact absurd rfl hi
  · decide
  · rw [slice, slice, List.drop_of_length_le, List.drop_of_length_le]
    · simp [seqBytes]; omega
    · simp [seqBytes]; omega

/-- A key of legal length, and one byte short of it. -/
theorem witness_ConstructMatchesSource :
    ∀ n ∈ [16, 15], Quiet (presenting ((constructCommands (seqBytes n)).map encode)) ∧
      (presenting ((constructCommands (seqBytes n)).map encode)).cmds = (constructCommands (seqBytes n)).map encode ++ [] ∧
      ((seqBytes n).length ∈ [16, 24, 32] ↔ n = 16) := by
  intro n hn
  refine ⟨quiet_presenting _, (List.append_nil _).symm, ?_⟩
  simp only [List.mem_cons, List.not_mem_nil, or_false] at hn
  rcases hn with rfl | rfl <;> decide

theorem witness_CalculateReturnsCmac :
    ∃ s : State, Quiet s ∧ (seqBytes 16).length ∈ [16, 24, 32] ∧
      s.cmds = (constructCommands (seqBytes 16) ++ [[], [0x61]].flatMap calculateCommands).map encode :=
  ⟨presenting ((constructCommands (seqBytes 16) ++ [[], [0x61]].flatMap calculateCommands).map encode), quiet_presenting _,
    by decide, rfl⟩

end Sys2Proof.Tests
end

/-! Theorems about the state (10_state.md, 70_reset_and_hazards.md): the shared facts first, then each statement. -/

/-! ## The words of commands -/

namespace Sys2Proof

/-- A word is made of its fields (30_encoding.md R60). -/
theorem wordOf_fieldsOf (w : Word16) : wordOf (fieldsOf w) = w := by
  simp only [wordOf, fieldsOf]
  rw [BitVec.extractLsb'_append_extractLsb'_eq_extractLsb' (show 8 = 0 + 8 from rfl),
    BitVec.extractLsb'_append_extractLsb'_eq_extractLsb' (show 12 = 0 + (4 + 8) from rfl)]
  exact BitVec.extractLsb'_eq_self

/-- The last opcode of the table is the one left when the others are excluded (30_encoding.md R63). -/
theorem opcode_eq_seven (op : BitVec 4) :
    op.toNat < 8 → op ≠ 0 → op ≠ 1 → op ≠ 2 → op ≠ 3 → op ≠ 4 → op ≠ 5 → op ≠ 6 → op = 7 := by
  bv_omega

/-- A check of the decoder that refuses was passed, if a command comes out. -/
theorem Decoded.of_illegal_ite {p : Prop} [Decidable p] {c : IllegalReason} {d : Decoded} {i : Instr}
    (h : (if p then .illegal c else d) = Decoded.legal i) : ¬p ∧ d = .legal i := by
  by_cases hp : p
  · rw [if_pos hp] at h; cases h
  · exact ⟨hp, by rwa [if_neg hp] at h⟩

/-- A row of the decoder either is the one selected or leaves the choice to the rows after it. -/
theorem Decoded.of_legal_ite {p : Prop} [Decidable p] {d : Decoded} {i j : Instr}
    (h : (if p then .legal j else d) = Decoded.legal i) : (p ∧ j = i) ∨ (¬p ∧ d = .legal i) := by
  by_cases hp : p
  · rw [if_pos hp] at h; cases h; exact .inl ⟨hp, rfl⟩
  · exact .inr ⟨hp, by rwa [if_neg hp] at h⟩

/-- A word that decodes to a command has that command's fields (30_encoding.md R63, R65). -/
theorem fieldsOf_of_decode {w : Word16} {i : Instr} (h : decode w = .legal i) : fieldsOf w = i.fields := by
  unfold decode at h
  generalize fieldsOf w = f at h ⊢
  obtain ⟨op, rsv, imm8⟩ := f
  obtain ⟨hrsv, h⟩ := Decoded.of_illegal_ite h
  obtain rfl : rsv = 0 := not_not.1 hrsv
  obtain ⟨hop, h⟩ := Decoded.of_illegal_ite h
  obtain ⟨rfl, rfl⟩ | ⟨h2, h⟩ := Decoded.of_legal_ite h
  · rfl
  obtain ⟨rfl, rfl⟩ | ⟨h4, h⟩ := Decoded.of_legal_ite h
  · rfl
  obtain ⟨himm, h⟩ := Decoded.of_illegal_ite h
  obtain rfl : imm8 = 0 := not_not.1 himm
  obtain ⟨rfl, rfl⟩ | ⟨h0, h⟩ := Decoded.of_legal_ite h
  · rfl
  obtain ⟨rfl, rfl⟩ | ⟨h1, h⟩ := Decoded.of_legal_ite h
  · rfl
  obtain ⟨rfl, rfl⟩ | ⟨h3, h⟩ := Decoded.of_legal_ite h
  · rfl
  obtain ⟨rfl, rfl⟩ | ⟨h5, h⟩ := Decoded.of_legal_ite h
  · rfl
  obtain ⟨rfl, rfl⟩ | ⟨h6, h⟩ := Decoded.of_legal_ite h
  · rfl
  cases h
  obtain rfl := opcode_eq_seven op (Nat.lt_of_not_le hop) h0 h1 h2 h3 h4 h5 h6
  rfl

/-- A word that decodes to a command is that command's word (30_encoding.md R67). -/
theorem eq_encode_of_decode {w : Word16} {i : Instr} (h : decode w = .legal i) : w = encode i := by
  rw [encode, ← fieldsOf_of_decode h, wordOf_fieldsOf]

end Sys2Proof

namespace Sys2Proof.Machine

/-! ## What a command can do to the registers and the oracle port -/

/-- The commands that write no register, on a keyed or an unkeyed engine (10_state.md R10): the three that only read,
and those that are refused with `ERR_BAD_STATE` (60_exceptions.md R174). -/
def keepsRegs (keyed : Bool) : Instr → Bool
  | .nop => true
  | .clr => false
  | .keyb _ => keyed
  | .init => keyed
  | .msgb _ => !keyed
  | .final => !keyed
  | .rdtag => true
  | .stat => true

/-- The registers after an `INIT` that constructs: the subkeys derived, `KEYED` set, a message boundary (R84). -/
def constructed (E : Oracle) (r : Regs) : Regs :=
  { toBoundary { r with k1 := (derive E (keySlice r)).1, k2 := (derive E (keySlice r)).2 } with keyed := true }

section Constructed
variable (E : Oracle) (r : Regs)

@[simp] theorem constructed_key : (constructed E r).key = r.key := by simp [constructed]
@[simp] theorem constructed_klen : (constructed E r).klen = r.klen := by simp [constructed]
@[simp] theorem constructed_tag : (constructed E r).tag = r.tag := by simp [constructed]
@[simp] theorem constructed_tagv : (constructed E r).tagv = r.tagv := by simp [constructed]

theorem constructed_keyed : (constructed E r).keyed = true := rfl

theorem constructed_subkeys : ((constructed E r).k1, (constructed E r).k2) = derive E (keySlice r) := by
  simp [constructed]

theorem atBoundary_constructed : AtBoundary (constructed E r) := ⟨rfl, rfl, rfl⟩

end Constructed

/-- The registers that a command can leave and the oracle calls it can make, case by case, each with the condition under
which it is the one that applies. -/
inductive Writes (E : Oracle) (r : Regs) : Instr → Regs → List OracleCall → Prop where
  | kept {i : Instr} (h : keepsRegs r.keyed i = true) : Writes E r i r []
  | clr : Writes E r .clr Regs.reset []
  | keybRoom (b : Byte) (unkeyed : r.keyed = false) (room : r.klen.toNat < 32) :
      Writes E r (.keyb b) (appendKeyByte r b) []
  | keybFull (b : Byte) (unkeyed : r.keyed = false) (full : 32 ≤ r.klen.toNat) :
      Writes E r (.keyb b) { r with klen := 33 } []
  | initBadLength (unkeyed : r.keyed = false) (bad : r.klen.toNat ∉ Config.keyLengths) :
      Writes E r .init { r with key := zero32, klen := 0 } []
  | initOk (unkeyed : r.keyed = false) (legal : r.klen.toNat ∈ Config.keyLengths) :
      Writes E r .init (constructed E r) [encCall E r zero16]
  | msgbRoom (b : Byte) (keyed : r.keyed = true) (room : r.cnt ≠ 16) :
      Writes E r (.msgb b) (appendBufByte r b) []
  | msgbFull (b : Byte) (keyed : r.keyed = true) (full : r.cnt = 16) :
      Writes E r (.msgb b) (appendBufByte (retireBlock E r) b) [encCall E r (retirePlaintext r)]
  | final (keyed : r.keyed = true) :
      Writes E r .final (toBoundary { r with tag := enc E r (finalPlaintext r), tagv := true })
        [encCall E r (finalPlaintext r)]

/-- Every command does one of these. -/
theorem effect_writes (E : Oracle) (i : Instr) (r : Regs) : Writes E r i (effect E i r).regs (effect E i r).calls := by
  cases i with
  | nop => exact .kept rfl
  | clr => exact .clr
  | keyb b =>
    rcases Bool.eq_false_or_eq_true r.keyed with h | h
    · rw [effect, keybEffect_keyed _ _ h]; exact .kept h
    · rcases Nat.lt_or_ge r.klen.toNat 32 with hk | hk
      · rw [effect, keybEffect_room _ _ h hk]; exact .keybRoom b h hk
      · rw [effect, keybEffect_full _ _ h hk]; exact .keybFull b h hk
  | init =>
    rcases Bool.eq_false_or_eq_true r.keyed with h | h
    · rw [effect, initEffect_keyed _ _ h]; exact .kept h
    · by_cases hk : r.klen.toNat ∈ Config.keyLengths
      · rw [effect, initEffect_ok _ _ h hk]; exact .initOk h hk
      · rw [effect, initEffect_badLength _ _ h hk]; exact .initBadLength h hk
  | msgb b =>
    rcases Bool.eq_false_or_eq_true r.keyed with h | h
    · by_cases hc : r.cnt = 16
      · rw [effect, msgbEffect_full _ _ _ h hc]; exact .msgbFull b h hc
      · rw [effect, msgbEffect_room _ _ _ h hc]; exact .msgbRoom b h hc
    · rw [effect, msgbEffect_unkeyed _ _ _ h]; exact .kept (by simp [keepsRegs, h])
  | final =>
    rcases Bool.eq_false_or_eq_true r.keyed with h | h
    · rw [effect, finalEffect_keyed _ _ h]; exact .final h
    · rw [effect, finalEffect_unkeyed _ _ h]; exact .kept (by simp [keepsRegs, h])
  | rdtag =>
    rcases Bool.eq_false_or_eq_true r.tagv with h | h
    · rw [effect, rdtagEffect_tag _ h]; exact .kept rfl
    · rw [effect, rdtagEffect_noTag _ h]; exact .kept rfl
  | stat => exact .kept rfl

/-- Every word does what the command it encodes does, or is illegal, and then it writes nothing and calls no oracle
(60_exceptions.md R173). -/
theorem wordEffect_writes (E : Oracle) (w : Word16) (r : Regs) :
    (∃ i, w = encode i ∧ Writes E r i (wordEffect E w r).regs (wordEffect E w r).calls) ∨
      ((wordEffect E w r).regs = r ∧ (wordEffect E w r).calls = []) := by
  cases hd : decode w with
  | legal i =>
    rw [wordEffect_of_legal E r hd]
    exact .inl ⟨i, eq_encode_of_decode hd, effect_writes E i r⟩
  | illegal c =>
    rw [wordEffect_of_illegal E r hd]
    exact .inr ⟨rfl, rfl⟩

/-- The registers after a step: the same, the reset values if `rst` was asserted, or as the command that was next leaves
them. -/
theorem step_writes {s t : State} (h : step s = .next t) :
    t.regs = s.regs ∨ (s.cues.head? = some .rst ∧ t.regs = Regs.reset) ∨
      ∃ i calls, nextWord s = some (encode i) ∧ Writes Config.E s.regs i t.regs calls := by
  rcases step_regs h with hs | hr | ⟨w, hw, ht⟩
  · exact .inl hs
  · exact .inr (.inl hr)
  · rcases wordEffect_writes Config.E w s.regs with ⟨i, rfl, hi⟩ | ⟨hs, _⟩
    · exact .inr (.inr ⟨i, _, hw, ht ▸ hi⟩)
    · exact .inl (ht.trans hs)

/-- The engine always gets on: neither a fault nor a refusal comes out of it. -/
theorem exists_advance_next (s : State) : ∃ t, advance s = .next t := by
  rcases advance_cases s with ⟨_, _, h⟩ | ⟨_, _, _, _, h⟩ | ⟨_, _, h⟩ <;> exact ⟨_, h⟩

theorem exists_stepCue_next (c : Cue) (s : State) : ∃ t, stepCue c s = .next t := by
  cases c with
  | go =>
    obtain ⟨u, _, h⟩ := stepGo_next s
    exact ⟨_, h⟩
  | hold => exact ⟨_, rfl⟩
  | rspStall =>
    rcases Option.eq_none_or_eq_some s.rspPort with hp | ⟨p, hp⟩
    · obtain ⟨t, ht⟩ := exists_advance_next s
      exact ⟨t, (stepRspStall_free hp).trans ht⟩
    · exact ⟨s, stepRspStall_waiting hp⟩
  | lateAnswer => exact ⟨_, rfl⟩
  | rst => exact ⟨_, rfl⟩

theorem exists_step_next (s : State) : ∃ t, step s = .next t := exists_stepCue_next _ _

/-! ## Which registers a command leaves as they are (10_state.md R10) -/

section Frames
variable {E : Oracle} {i : Instr} {r r' : Regs} {calls : List OracleCall}

theorem Writes.key_frame (h : Writes E r i r' calls) (hk : ∀ b, i ≠ .keyb b) (hi : i ≠ .init) (hc : i ≠ .clr) :
    r'.key = r.key ∧ r'.klen = r.klen := by
  cases h with
  | kept => exact ⟨rfl, rfl⟩
  | clr => exact absurd rfl hc
  | keybRoom b | keybFull b => exact absurd rfl (hk b)
  | initBadLength | initOk => exact absurd rfl hi
  | msgbRoom | msgbFull | final => exact ⟨rfl, rfl⟩

theorem Writes.subkey_frame (h : Writes E r i r' calls) (hi : i ≠ .init) (hc : i ≠ .clr) :
    r'.keyed = r.keyed ∧ r'.k1 = r.k1 ∧ r'.k2 = r.k2 := by
  cases h with
  | kept => exact ⟨rfl, rfl, rfl⟩
  | clr => exact absurd rfl hc
  | initBadLength | initOk => exact absurd rfl hi
  | keybRoom | keybFull | msgbRoom | msgbFull | final => exact ⟨rfl, rfl, rfl⟩

theorem Writes.message_frame (h : Writes E r i r' calls) (hi : i ≠ .init) (hm : ∀ b, i ≠ .msgb b) (hf : i ≠ .final)
    (hc : i ≠ .clr) : r'.x = r.x ∧ r'.buf = r.buf ∧ r'.cnt = r.cnt := by
  cases h with
  | kept => exact ⟨rfl, rfl, rfl⟩
  | clr => exact absurd rfl hc
  | keybRoom | keybFull => exact ⟨rfl, rfl, rfl⟩
  | initBadLength | initOk => exact absurd rfl hi
  | msgbRoom b | msgbFull b => exact absurd rfl (hm b)
  | final => exact absurd rfl hf

theorem Writes.tag_frame (h : Writes E r i r' calls) (hf : i ≠ .final) (hc : i ≠ .clr) :
    r'.tag = r.tag ∧ r'.tagv = r.tagv := by
  cases h with
  | kept => exact ⟨rfl, rfl⟩
  | clr => exact absurd rfl hc
  | final => exact absurd rfl hf
  | initOk => exact ⟨constructed_tag E r, constructed_tagv E r⟩
  | keybRoom | keybFull | initBadLength | msgbRoom | msgbFull => exact ⟨rfl, rfl⟩

/-- On a keyed engine every command but `CLR` leaves the key, its length, the subkeys and `KEYED` (R11, R14, R86). -/
theorem Writes.keyMaterial_frame (h : Writes E r i r' calls) (hr : r.keyed = true) (hc : i ≠ .clr) :
    r'.key = r.key ∧ r'.klen = r.klen ∧ r'.k1 = r.k1 ∧ r'.k2 = r.k2 ∧ r'.keyed = true := by
  cases h with
  | clr => exact absurd rfl hc
  | keybRoom _ unkeyed | keybFull _ unkeyed | initBadLength unkeyed | initOk unkeyed =>
    exact absurd hr (by simp [unkeyed])
  | kept | msgbRoom | msgbFull | final => exact ⟨rfl, rfl, rfl, rfl, hr⟩

/-- Only an `INIT` with a key of legal length sets `KEYED` (R13). -/
theorem Writes.eq_init_of_keyed (h : Writes E r i r' calls) (hr : r.keyed = false) (hr' : r'.keyed = true) :
    i = .init ∧ r.klen.toNat ∈ Config.keyLengths := by
  cases h with
  | initOk _ legal => exact ⟨rfl, legal⟩
  | clr => cases hr'
  | kept | keybRoom | keybFull | initBadLength | msgbRoom | msgbFull | final =>
    exact absurd (hr'.symm.trans hr) (by decide)

end Frames

/-! ## `STATUS` as a number (10_state.md R20) -/

theorem toNat_flagBit (b : Bool) : (flagBit b).toNat = b.toNat := by cases b <;> rfl

/-- The fields of `STATUS` do not overlap, so its number is the sum of theirs. -/
theorem toNat_status (r : Regs) :
    r.status.toNat = r.klen.toNat * 256 + r.cnt.toNat * 8 + r.tagv.toNat * 2 + r.keyed.toNat := by
  have hk := r.klen.isLt
  have hc := r.cnt.isLt
  have ht := Bool.toNat_le r.tagv
  have hd := Bool.toNat_le r.keyed
  have shift : r.status.toNat =
      r.klen.toNat <<< 8 ||| (r.cnt.toNat <<< 3 ||| (r.tagv.toNat <<< 1 ||| r.keyed.toNat)) := by
    simp only [Regs.status, BitVec.toNat_or, BitVec.toNat_shiftLeft, BitVec.toNat_setWidth, toNat_flagBit,
      Nat.or_assoc, Nat.shiftLeft_eq]
    congr 1
    · omega
    congr 1
    · omega
    congr 1
    omega
  rw [shift, ← Nat.shiftLeft_add_eq_or_of_lt (show r.keyed.toNat < 2 ^ 1 by omega),
    ← Nat.shiftLeft_add_eq_or_of_lt (show r.tagv.toNat <<< 1 + r.keyed.toNat < 2 ^ 3 by omega),
    ← Nat.shiftLeft_add_eq_or_of_lt
      (show r.cnt.toNat <<< 3 + (r.tagv.toNat <<< 1 + r.keyed.toNat) < 2 ^ 8 by omega)]
  omega

/-- A bit of `STATUS`, read off its number. -/
theorem getLsbD_status (r : Regs) (j : Nat) : r.status.getLsbD j = true ↔
    (r.klen.toNat * 256 + r.cnt.toNat * 8 + r.tagv.toNat * 2 + r.keyed.toNat) / 2 ^ j % 2 = 1 := by
  rw [← BitVec.testBit_toNat, toNat_status, Nat.testBit_eq_decide_div_mod_eq, decide_eq_true_iff]

/-- A field of `STATUS`, read off its number. -/
theorem toNat_extractLsb'_status (r : Regs) (start len : Nat) : (r.status.extractLsb' start len).toNat =
    (r.klen.toNat * 256 + r.cnt.toNat * 8 + r.tagv.toNat * 2 + r.keyed.toNat) / 2 ^ start % 2 ^ len := by
  rw [BitVec.extractLsb'_toNat, Nat.shiftRight_eq_div_pow, toNat_status]

/-! ## The open message, command by command (10_state.md R29) -/

section OpenMessage
variable {E : Oracle} {m : List Byte} {r r' : Regs}

/-- A command that writes no register leaves the open message. -/
theorem openAfter_of_keepsRegs {keyed : Bool} {i : Instr} (h : keepsRegs keyed i = true) (m : List Byte) :
    openAfter keyed m i = m := by
  cases i with
  | nop | keyb | rdtag | stat => rfl
  | clr => cases h
  | init => exact if_pos h
  | msgb b => rw [keepsRegs, Bool.not_eq_true'] at h; rw [h]; rfl
  | final => rw [keepsRegs, Bool.not_eq_true'] at h; rw [h]; rfl

/-- At a message boundary the registers hold the empty message, keyed or not. -/
theorem holdsMessage_nil (h : AtBoundary r) : HoldsMessage E [] r := ⟨streams_nil h, fun _ => rfl⟩

theorem atBoundary_reset : AtBoundary Regs.reset := ⟨rfl, rfl, rfl⟩

/-- An unkeyed engine is at a message boundary. -/
theorem HoldsMessage.atBoundary (h : HoldsMessage E m r) (hr : r.keyed = false) : AtBoundary r := by
  obtain rfl := h.unkeyed hr
  exact h.streams.empty rfl

/-- An unkeyed engine goes on holding the open message, which is empty, while only its key changes. -/
theorem HoldsMessage.congr_unkeyed (h : HoldsMessage E m r) (hr : r.keyed = false) (hx : r'.x = r.x)
    (hb : r'.buf = r.buf) (hc : r'.cnt = r.cnt) : HoldsMessage E m r' := by
  obtain ⟨x, buf, cnt⟩ := h.atBoundary hr
  obtain rfl := h.unkeyed hr
  exact holdsMessage_nil ⟨hx.trans x, hb.trans buf, hc.trans cnt⟩

/-- A keyed engine holds what its registers stream. -/
theorem holdsMessage_of_keyed (h : Streams E m r) (hr : r.keyed = true) : HoldsMessage E m r :=
  ⟨h, fun hf => absurd (hr.symm.trans hf) (by decide)⟩

/-- After a command the registers hold the open message that the command leaves. -/
theorem Writes.holdsMessage {i : Instr} {calls : List OracleCall} (h : Writes E r i r' calls)
    (hm : HoldsMessage E m r) : HoldsMessage E (openAfter r.keyed m i) r' := by
  cases h with
  | kept hk => rwa [openAfter_of_keepsRegs hk]
  | clr => exact holdsMessage_nil atBoundary_reset
  | keybRoom _ unkeyed | keybFull _ unkeyed => exact hm.congr_unkeyed unkeyed rfl rfl rfl
  | initBadLength unkeyed =>
    obtain rfl := hm.unkeyed unkeyed
    rw [openAfter, ite_self]
    exact hm.congr_unkeyed unkeyed rfl rfl rfl
  | initOk unkeyed =>
    rw [openAfter, unkeyed]
    exact holdsMessage_nil (atBoundary_constructed E r)
  | msgbRoom b keyed room =>
    rw [openAfter, if_pos keyed]
    exact holdsMessage_of_keyed (streams_append_room b hm.streams room) keyed
  | msgbFull b keyed full =>
    rw [openAfter, if_pos keyed]
    exact holdsMessage_of_keyed (streams_append_full b hm.streams full) keyed
  | final keyed =>
    rw [openAfter, if_pos keyed]
    exact holdsMessage_nil (atBoundary_toBoundary _)

end OpenMessage

/-! ## The invariants of the registers (10_state.md R24 to R28) -/

section RegsInvariant
variable {E : Oracle} {r r' : Regs}

/-- What R27 and R28 say of the message registers. -/
structure BufferInv (r : Regs) : Prop where
  cntRange : r.cnt.toNat ≤ 16
  bufTail : ∀ i : Fin 16, r.cnt.toNat ≤ i.val → r.buf[i] = 0
  boundaryX : r.cnt = 0 → r.x = zero16

theorem AtBoundary.bufferInv (h : AtBoundary r) : BufferInv r where
  cntRange := by rw [h.cnt]; decide
  bufTail i _ := by rw [h.buf]; exact getElem_zero16 i.val i.isLt
  boundaryX _ := h.x

/-- A byte appended where the buffer has room; the chaining value may be any. -/
theorem bufferInv_appendBufByte (b : Byte) (room : r.cnt.toNat < 16)
    (tail : ∀ i : Fin 16, r.cnt.toNat ≤ i.val → r.buf[i] = 0) : BufferInv (appendBufByte r b) := by
  have count : (appendBufByte r b).cnt.toNat = r.cnt.toNat + 1 := by
    rw [appendBufByte_cnt, BitVec.toNat_add]
    simp only [BitVec.reduceToNat]
    omega
  refine ⟨by omega, fun i hi => ?_, fun h0 => ?_⟩
  · have hne : r.cnt.toNat ≠ i.val := by omega
    simpa [hne] using tail i (by omega)
  · rw [h0] at count
    cases count

/-- A keyed engine meets the invariant with the key it was given, of legal length, that key's subkeys, and message
registers that meet R27 and R28. -/
theorem RegsInv.to_keyed (h : RegsInv E r) (hk : r'.key = r.key) (hl : r'.klen = r.klen) (keyed : r'.keyed = true)
    (legal : r.klen.toNat ∈ Config.keyLengths) (subkeys : (r'.k1, r'.k2) = derive E (keySlice r))
    (hb : BufferInv r') : RegsInv E r' :=
  { klenRange := by rw [hl]; exact h.klenRange
    keyTail := by rw [hl, hk]; exact h.keyTail
    keyedLength := fun _ => by rw [hl]; exact legal
    keyedSubkeys := fun _ => by rw [subkeys, keySlice_congr hk hl]
    unkeyed := fun hf => absurd (keyed.symm.trans hf) (by decide)
    cntRange := hb.cntRange
    bufTail := hb.bufTail
    boundaryX := hb.boundaryX }

/-- On a keyed engine the invariant lasts while the key material stays and the message registers meet R27 and R28. -/
theorem RegsInv.of_keyMaterial (h : RegsInv E r) (hr : r.keyed = true)
    (same : r'.key = r.key ∧ r'.klen = r.klen ∧ r'.k1 = r.k1 ∧ r'.k2 = r.k2 ∧ r'.keyed = true)
    (hb : BufferInv r') : RegsInv E r' := by
  obtain ⟨hk, hl, k1, k2, keyed⟩ := same
  exact h.to_keyed hk hl keyed (h.keyedLength hr) (by rw [k1, k2, h.keyedSubkeys hr]) hb

/-- On an unkeyed engine the invariant lasts while `KEY` and `KLEN` keep R24 and nothing else changes. -/
theorem RegsInv.with_key (h : RegsInv E r) (hr : r.keyed = false) {key : KeyArray} {klen : BitVec 6}
    (range : klen.toNat ≤ 33) (tail : ∀ i : Fin 32, min klen.toNat 32 ≤ i.val → key[i] = 0) :
    RegsInv E { r with key := key, klen := klen } :=
  { klenRange := range
    keyTail := tail
    keyedLength := fun hk => absurd (hk.symm.trans hr) (by decide)
    keyedSubkeys := fun hk => absurd (hk.symm.trans hr) (by decide)
    unkeyed := h.unkeyed
    cntRange := h.cntRange
    bufTail := h.bufTail
    boundaryX := h.boundaryX }

theorem regsInv_reset (E : Oracle) : RegsInv E Regs.reset :=
  { klenRange := by decide
    keyTail := fun i _ => getElem_zero32 i.val i.isLt
    keyedLength := fun h => by cases h
    keyedSubkeys := fun h => by cases h
    unkeyed := fun _ => ⟨rfl, rfl, rfl, rfl, rfl, rfl, rfl⟩
    cntRange := atBoundary_reset.bufferInv.cntRange
    bufTail := atBoundary_reset.bufferInv.bufTail
    boundaryX := atBoundary_reset.bufferInv.boundaryX }

/-- A key byte appended where `KEY` has room. -/
theorem RegsInv.appendKeyByte (h : RegsInv E r) (hr : r.keyed = false) (room : r.klen.toNat < 32) (b : Byte) :
    RegsInv E (appendKeyByte r b) := by
  have count : (r.klen + 1).toNat = r.klen.toNat + 1 := by
    rw [BitVec.toNat_add]
    simp only [BitVec.reduceToNat]
    omega
  refine h.with_key hr (by omega) fun i hi => ?_
  have hne : r.klen.toNat ≠ i.val := by omega
  simpa [hne] using h.keyTail i (by omega)

/-- Every command keeps R24 to R28. -/
theorem Writes.regsInv {i : Instr} {calls : List OracleCall} (h : Writes E r i r' calls) (hr : RegsInv E r) :
    RegsInv E r' := by
  have frame := h.keyMaterial_frame
  cases h with
  | kept => exact hr
  | clr => exact regsInv_reset E
  | keybRoom b unkeyed room => exact hr.appendKeyByte unkeyed room b
  | keybFull b unkeyed =>
    refine hr.with_key unkeyed (by decide) fun i hi => ?_
    simp only [BitVec.reduceToNat] at hi
    omega
  | initBadLength unkeyed => exact hr.with_key unkeyed (by decide) fun i _ => getElem_zero32 i.val i.isLt
  | initOk _ legal =>
    exact hr.to_keyed (constructed_key E r) (constructed_klen E r) (constructed_keyed E r) legal
      (constructed_subkeys E r) (atBoundary_constructed E r).bufferInv
  | msgbRoom b keyed room =>
    have hlt : r.cnt.toNat < 16 :=
      Nat.lt_of_le_of_ne hr.cntRange fun he => room (BitVec.eq_of_toNat_eq he)
    exact hr.of_keyMaterial keyed (frame keyed (by simp)) (bufferInv_appendBufByte b hlt hr.bufTail)
  | msgbFull b keyed =>
    exact hr.of_keyMaterial keyed (frame keyed (by simp))
      (bufferInv_appendBufByte b (show 0 < 16 by decide) fun i _ => getElem_zero16 i.val i.isLt)
  | final keyed => exact hr.of_keyMaterial keyed (frame keyed (by simp)) (atBoundary_toBoundary _).bufferInv

end RegsInvariant

/-! ## The oracle calls and the ports -/

section Ports
variable {E : Oracle} {r : Regs} {s t : State}

/-- A request made with a key of legal length is proper: `KEY` is zero from `KLEN` on (R24). -/
theorem properCall_encCall (h : RegsInv E r) (legal : r.klen.toNat ∈ Config.keyLengths) (p : Block) :
    ProperCall E (encCall E r p) where
  request := ⟨legal, fun i hi => h.keyTail i (Nat.le_trans (Nat.min_le_left _ _) hi)⟩
  answered _ hc := (Option.some.inj hc).symm

/-- Every call a command makes is proper. -/
theorem Writes.properCalls {i : Instr} {r' : Regs} {calls : List OracleCall} (h : Writes E r i r' calls)
    (hr : RegsInv E r) : ∀ c ∈ calls, ProperCall E c := by
  cases h with
  | kept | clr | keybRoom | keybFull | initBadLength | msgbRoom => exact List.forall_mem_nil _
  | initOk _ legal => exact List.forall_mem_singleton.2 (properCall_encCall hr legal _)
  | msgbFull _ keyed | final keyed =>
    exact List.forall_mem_singleton.2 (properCall_encCall hr (hr.keyedLength keyed) _)

theorem properCalls_wordEffect (hr : RegsInv E r) (w : Word16) : ∀ c ∈ (wordEffect E w r).calls, ProperCall E c := by
  rcases wordEffect_writes E w r with ⟨_, _, hi⟩ | ⟨_, hn⟩
  · exact hi.properCalls hr
  · rw [hn]; exact List.forall_mem_nil _

/-- The request that a command in progress has outstanding is proper. -/
theorem properRequest_wordRequest (hr : RegsInv Config.E r) {w : Word16} {q : Request}
    (h : wordRequest w r = some q) : ProperRequest q := by
  obtain ⟨c, hc, rfl⟩ := Option.map_eq_some_iff.1 h
  exact (properCalls_wordEffect hr w c (List.mem_of_head? hc)).request

/-- With no command in progress only the calls on record matter. -/
theorem portsInv_of_free (free : s.inFlight = none) (calls : ∀ c ∈ s.calls, ProperCall Config.E c) : PortsInv s where
  outstanding f hf := by rw [free] at hf; cases hf
  oneAtATime _ := free
  calls := calls

theorem PortsInv.takeResponse (h : PortsInv s) : PortsInv s.takeResponse where
  outstanding := h.outstanding
  oneAtATime hp := by cases hp
  calls := h.calls

theorem PortsInv.acceptAndHold (h : PortsInv s) (noResponse : s.rspPort = none) : PortsInv (acceptAndHold s) := by
  rcases Option.eq_none_or_eq_some s.inFlight with hf | ⟨f, hf⟩
  · rcases hc : s.cmds with _ | ⟨w, ws⟩
    · rwa [acceptAndHold_idle hf hc]
    · rw [acceptAndHold_accept hf hc]
      exact
        { outstanding := fun g hg => by cases hg; rfl
          oneAtATime := fun hp => by rw [noResponse] at hp; cases hp
          calls := h.calls }
  · rwa [acceptAndHold_busy hf]

/-- A command that is run leaves no command in progress, and its calls are proper. -/
theorem PortsInv.advance (h : PortsInv s) (hr : RegsInv Config.E s.regs) (ht : advance s = .next t) : PortsInv t := by
  have grown (w : Word16) : ∀ c ∈ s.calls ++ (wordEffect Config.E w s.regs).calls, ProperCall Config.E c :=
    List.forall_mem_append.2 ⟨h.calls, properCalls_wordEffect hr w⟩
  rcases advance_cases s with ⟨f, _, e⟩ | ⟨w, _, hf, _, e⟩ | ⟨_, _, e⟩ <;> (rw [e] at ht; cases ht)
  · exact portsInv_of_free rfl (grown f.word)
  · exact portsInv_of_free hf (grown w)
  · exact h

/-- What a reset abandons is on record as a proper request without an answer (70_reset_and_hazards.md R203). -/
theorem PortsInv.afterReset (h : PortsInv s) (hr : RegsInv Config.E s.regs) : PortsInv s.afterReset := by
  refine portsInv_of_free rfl (List.forall_mem_append.2 ⟨h.calls, ?_⟩)
  rcases hf : s.inFlight with _ | ⟨w, req⟩
  · exact List.forall_mem_nil _
  · cases req with
    | none => exact List.forall_mem_nil _
    | some q =>
      exact List.forall_mem_singleton.2
        ⟨properRequest_wordRequest hr (h.outstanding _ hf).symm, fun _ hct => by cases hct⟩

/-- What holds at the ports is kept under every cue. -/
theorem PortsInv.stepCue {c : Cue} (h : PortsInv s) (hr : RegsInv Config.E s.regs) (ht : stepCue c s = .next t) :
    PortsInv t := by
  cases c with
  | go =>
    obtain ⟨u, hu, hg⟩ := stepGo_next s
    obtain rfl := (next_injective _ _).1 (hg.symm.trans ht)
    exact (h.takeResponse.advance hr hu).takeResponse
  | hold => cases ht; exact h.takeResponse.acceptAndHold rfl
  | rspStall =>
    rcases Option.eq_none_or_eq_some s.rspPort with hp | ⟨p, hp⟩
    · exact h.advance hr ((stepRspStall_free hp).symm.trans ht)
    · obtain rfl := (next_injective _ _).1 ((stepRspStall_waiting hp).symm.trans ht)
      exact h
  | lateAnswer => cases ht; exact h
  | rst => cases ht; exact h.afterReset hr

/-- The schedule of cues is no port: using up a cue changes nothing there. -/
theorem PortsInv.step (h : PortsInv s) (hr : RegsInv Config.E s.regs) (ht : step s = .next t) : PortsInv t := by
  rcases hc : s.cues with _ | ⟨c, cs⟩
  · exact h.stepCue (c := .go) hr ((step_of_cues_nil hc).symm.trans ht)
  · have h' : PortsInv { s with cues := cs } := ⟨h.outstanding, h.oneAtATime, h.calls⟩
    exact h'.stepCue hr ((step_of_cues_cons hc).symm.trans ht)

end Ports

/-- What every step does to the registers keeps R24 to R29. -/
theorem regsInv_step {s t : State} (h : RegsInv Config.E s.regs) (ht : step s = .next t) : RegsInv Config.E t.regs := by
  rcases step_writes ht with e | ⟨_, e⟩ | ⟨_, _, _, hw⟩
  · rwa [e]
  · rw [e]; exact regsInv_reset _
  · exact hw.regsInv h

theorem exists_holdsMessage_step {s t : State} (h : ∃ m, HoldsMessage Config.E m s.regs) (ht : step s = .next t) :
    ∃ m, HoldsMessage Config.E m t.regs := by
  obtain ⟨m, hm⟩ := h
  rcases step_writes ht with e | ⟨_, e⟩ | ⟨_, _, _, hw⟩
  · exact ⟨m, e ▸ hm⟩
  · exact ⟨[], e ▸ holdsMessage_nil atBoundary_reset⟩
  · exact ⟨_, hw.holdsMessage hm⟩

/-! ## The statements -/

/-- Settles O16: the registers by what a step can write, the ports cue by cue. -/
theorem stepKeepsInvariant : Obligations.StepKeepsInvariant := by
  intro s t h ht
  exact ⟨regsInv_step h.regs ht, exists_holdsMessage_step h.message ht, h.ports.step h.regs ht⟩

/-- Settles O10: every field is read off the number. -/
theorem statusLayout : Obligations.StatusLayout := by
  intro r
  have hk := r.klen.isLt
  have hc := r.cnt.isLt
  have ht := Bool.toNat_le r.tagv
  have hd := Bool.toNat_le r.keyed
  refine ⟨?_, ?_, ?_, ?_, ?_, ?_, toNat_status r⟩
  · rw [Bool.eq_iff_iff, getLsbD_status, ← Bool.toNat_eq_one]
    omega
  · rw [Bool.eq_iff_iff, getLsbD_status, ← Bool.toNat_eq_one]
    omega
  · rw [← Bool.not_eq_true, getLsbD_status]
    omega
  · apply BitVec.eq_of_toNat_eq
    rw [toNat_extractLsb'_status]
    omega
  · apply BitVec.eq_of_toNat_eq
    rw [toNat_extractLsb'_status]
    omega
  · apply BitVec.eq_of_toNat_eq
    rw [toNat_extractLsb'_status]
    simp only [BitVec.reduceToNat]
    omega

/-- Settles O11: each clause is the frame of the registers it names, read backwards. -/
theorem registersWrittenBy : Obligations.RegistersWrittenBy := by
  intro i s
  have h := effect_writes Config.E i s.regs
  refine ⟨_, _, _, exec_eq_commit i s, rfl, ?_, ?_, ?_, ?_⟩
  · contrapose!
    exact fun ⟨hk, hi, hc⟩ => h.key_frame hk hi hc
  · contrapose!
    exact fun ⟨hi, hc⟩ => h.subkey_frame hi hc
  · contrapose!
    exact fun ⟨hi, hm, hf, hc⟩ => h.message_frame hi hm hf hc
  · contrapose!
    exact fun ⟨hf, hc⟩ => h.tag_frame hf hc

/-- Settles O12: a step that changes `KEYED` ran an `INIT` or a `CLR`, or was a reset. -/
theorem keyedTransitions : Obligations.KeyedTransitions := by
  intro s
  obtain ⟨t, ht⟩ := exists_step_next s
  refine ⟨t, ht, fun hs hs' => ?_, fun hs hs' => ?_⟩
  · rcases step_writes ht with e | ⟨_, e⟩ | ⟨i, _, hn, hw⟩
    · rw [e, hs] at hs'; cases hs'
    · rw [e] at hs'; cases hs'
    · obtain ⟨rfl, legal⟩ := hw.eq_init_of_keyed hs hs'
      exact ⟨hn, legal⟩
  · rcases step_writes ht with e | ⟨hrst, _⟩ | ⟨i, _, hn, hw⟩
    · rw [e, hs] at hs'; cases hs'
    · exact .inl hrst
    · by_cases hc : i = .clr
      · exact .inr (hc ▸ hn)
      · obtain ⟨_, _, _, _, hk⟩ := hw.keyMaterial_frame hs hc
        rw [hk] at hs'; cases hs'

/-- Settles O13: on a keyed engine only `CLR` and a reset touch the key material. -/
theorem keyMaterialFixedWhileKeyed : Obligations.KeyMaterialFixedWhileKeyed := by
  intro s hs hrst hclr
  obtain ⟨t, ht⟩ := exists_step_next s
  refine ⟨t, ht, ?_⟩
  rcases step_writes ht with e | ⟨hr, _⟩ | ⟨i, _, hn, hw⟩
  · rw [e]; exact ⟨rfl, rfl, rfl, rfl, hs⟩
  · exact absurd hr hrst
  · exact hw.keyMaterial_frame hs fun hi => hclr (hi ▸ hn)

/-- Settles O14: of the commands only `FINAL` and `CLR` touch `TAG` and `TAGV`. -/
theorem tagKeptUntilFinalOrClear : Obligations.TagKeptUntilFinalOrClear := by
  intro s hrst hclr hfinal
  obtain ⟨t, ht⟩ := exists_step_next s
  refine ⟨t, ht, ?_⟩
  rcases step_writes ht with e | ⟨hr, _⟩ | ⟨i, _, hn, hw⟩
  · rw [e]; exact ⟨rfl, rfl⟩
  · exact absurd hr hrst
  · exact hw.tag_frame (fun hi => hfinal (hi ▸ hn)) fun hi => hclr (hi ▸ hn)

/-- Settles O17, by what each command can write. -/
theorem openMessageIsHeld : Obligations.OpenMessageIsHeld := by
  intro i s m hm
  exact ⟨_, exec_eq_commit i s, (effect_writes Config.E i s.regs).holdsMessage hm⟩

/-- Settles O9: the reset values are literals. -/
theorem resetState : Obligations.ResetState := by
  refine ⟨rfl, rfl, rfl, rfl, rfl, rfl, rfl, rfl, rfl, rfl, ?_, rfl, rfl, rfl⟩
  exact BitVec.eq_of_toNat_eq (toNat_status Regs.reset)

/-- Settles O15: the reset state holds the empty message, with nothing at the ports. -/
theorem resetMeetsInvariant : Obligations.ResetMeetsInvariant :=
  ⟨regsInv_reset _, ⟨[], holdsMessage_nil atBoundary_reset⟩, portsInv_of_free rfl (List.forall_mem_nil _)⟩

end Sys2Proof.Machine

/-! Theorems about the ports and the sequencing of commands (20_memory.md): the shared facts first, then each
statement. -/

/-! ## The words of commands, decoded -/

namespace Sys2Proof

/-- The fields of a word are those it was made of (30_encoding.md R60). -/
theorem fieldsOf_wordOf (f : CmdFields) : fieldsOf (wordOf f) = f := by
  obtain ⟨op, rsv, imm8⟩ := f
  simp only [fieldsOf, wordOf, CmdFields.mk.injEq]
  refine ⟨BitVec.extractLsb'_append_eq_left, ?_, ?_⟩
  · rw [BitVec.extractLsb'_append_eq_of_add_le (by decide)]
    exact BitVec.extractLsb'_append_eq_left
  · rw [BitVec.extractLsb'_append_eq_of_add_le (by decide)]
    exact BitVec.extractLsb'_append_eq_right

/-- Every command's word decodes to that command, its operand at any value (30_encoding.md R63, R65). -/
theorem decode_encode (i : Instr) : decode (encode i) = .legal i := by
  unfold decode
  rw [encode, fieldsOf_wordOf]
  cases i <;> rfl

end Sys2Proof

namespace Sys2Proof.Machine

/-- The word of a command has that command's effect. -/
theorem wordEffect_encode (E : Oracle) (i : Instr) (r : Regs) : wordEffect E (encode i) r = effect E i r :=
  wordEffect_of_legal E r (decode_encode i)

/-! ## Bytes on a bus (20_memory.md R44) -/

/-- A byte string's bus value is the number it stands for. -/
theorem toNat_busOf (l : List Byte) : (busOf l).toNat = numberOf l := by
  induction l with
  | nil => rfl
  | cons b l ih => rw [toNat_busOf_cons, ih, numberOf]

/-- The bus value of a block is `val` of it. -/
theorem toNat_blockBus (b : Block) : (blockBus b).toNat = val b := by
  rw [blockBus, BitVec.toNat_cast, toNat_busOf, val]

/-- Byte `i` of a byte string stands `i` bytes below the top of the bus. -/
theorem extractLsb'_busOf (l : List Byte) (i start : Nat) (h : i < l.length) (hs : start = 8 * (l.length - 1 - i)) :
    (busOf l).extractLsb' start 8 = l[i] := by
  apply BitVec.eq_of_getLsbD_eq
  intro j hj
  have byte : l.length - 1 - (start + j) / 8 = i := by omega
  have bit : (start + j) % 8 = j := by omega
  simp [hj, getLsbD_busOf l (start + j) (by omega), byte, bit, h]

theorem extractLsb'_blockBus (b : Block) (i : Nat) (h : i < 16) : (blockBus b).extractLsb' (120 - 8 * i) 8 = b[i] := by
  rw [blockBus, BitVec.extractLsb'_cast, extractLsb'_busOf _ i _ (by simp [h]) (by simp; omega), Vector.getElem_toList]

theorem extractLsb'_keyBus (k : KeyArray) (i : Nat) (h : i < 32) : (keyBus k).extractLsb' (248 - 8 * i) 8 = k[i] := by
  rw [keyBus, BitVec.extractLsb'_cast, extractLsb'_busOf _ i _ (by simp [h]) (by simp; omega), Vector.getElem_toList]

/-! ## Holding a command, and running the one decoded -/

section Steps
variable {s : State} {i : Instr}

/-- Holding does not look at the schedule. -/
theorem acceptAndHold_withCues (s : State) (cs : List Cue) :
    acceptAndHold { s with cues := cs } = { acceptAndHold s with cues := cs } := by
  rcases advance_cases s with ⟨f, hf, _⟩ | ⟨w, ws, hf, hc, _⟩ | ⟨hf, hc, _⟩
  · rw [acceptAndHold_busy hf]
    exact acceptAndHold_busy hf
  · rw [acceptAndHold_accept hf hc]
    exact acceptAndHold_accept hf hc
  · rw [acceptAndHold_idle hf hc]
    exact acceptAndHold_idle hf hc

/-- What one hold has put in progress, or found idle, a second one leaves so. -/
theorem acceptAndHold_acceptAndHold (s : State) : acceptAndHold (acceptAndHold s) = acceptAndHold s := by
  rcases advance_cases s with ⟨f, hf, _⟩ | ⟨w, ws, hf, hc, _⟩ | ⟨hf, hc, _⟩
  · rw [acceptAndHold_busy hf, acceptAndHold_busy hf]
  · rw [acceptAndHold_accept hf hc]
    exact acceptAndHold_busy rfl
  · rw [acceptAndHold_idle hf hc, acceptAndHold_idle hf hc]

/-- Finishing a command that was held does what running it at once would have done (20_memory.md R48,
70_reset_and_hazards.md R210). -/
theorem advance_acceptAndHold (s : State) : advance (acceptAndHold s) = advance s := by
  rcases advance_cases s with ⟨f, hf, _⟩ | ⟨w, ws, hf, hc, _⟩ | ⟨hf, hc, _⟩
  · rw [acceptAndHold_busy hf]
  · rw [acceptAndHold_accept hf hc, advance_accept hf hc, advance_inFlight rfl, hf]
  · rw [acceptAndHold_idle hf hc]

theorem stepGo_acceptAndHold (hp : s.rspPort = none) : stepGo (acceptAndHold s) = stepGo s := by
  obtain ⟨_, _, hport, _, _⟩ := acceptAndHold_frame s
  rw [stepGo, stepGo, takeResponse_of_none s hp, takeResponse_of_none _ (hport.trans hp), advance_acceptAndHold]

/-- With no response to take, `hold` puts the next word in progress or leaves the one that is. -/
theorem step_hold {cs : List Cue} (hp : s.rspPort = none) (hc : s.cues = .hold :: cs) :
    step s = .next (acceptAndHold { s with cues := cs }) := by
  rw [step_of_cues_cons hc, stepCue, stepHold, takeResponse_of_none { s with cues := cs } hp]

/-- Any number of holds does what one does (43_cipher_oracle.md R145). -/
theorem run_hold (n : Nat) {cs : List Cue} (hp : s.rspPort = none)
    (hc : s.cues = List.replicate (n + 1) .hold ++ cs) :
    core.run (n + 1) s = .next (acceptAndHold { s with cues := cs }) := by
  induction n generalizing s with
  | zero => exact (core_run_one s).trans (step_hold hp hc)
  | succ n ih =>
    have first := step_hold hp (cs := List.replicate (n + 1) .hold ++ cs) (hc.trans rfl)
    obtain ⟨_, hcues, hport, _, _⟩ := acceptAndHold_frame { s with cues := List.replicate (n + 1) .hold ++ cs }
    rw [core_run_succ _ first, ih (hport.trans hp) hcues, ← acceptAndHold_withCues, acceptAndHold_acceptAndHold]

/-- An engine that is free runs the command presented to it. -/
theorem advance_eq_exec {ws : List Word16} (hf : s.inFlight = none) (hc : s.cmds = encode i :: ws) :
    advance s = exec i { s with cmds := ws } := by
  rw [advance_accept hf hc, wordEffect_encode, exec_eq_commit]

/-- An engine with a command in progress runs that one. -/
theorem advance_inFlight_eq_exec {q : Option Request} (hf : s.inFlight = some { word := encode i, req := q }) :
    advance s = exec i { s with inFlight := none } := by
  rw [advance_inFlight hf, wordEffect_encode, exec_eq_commit]

theorem stepGo_eq_exec {ws : List Word16} (hf : s.inFlight = none) (hc : s.cmds = encode i :: ws) :
    stepGo s = mapNext State.takeResponse (exec i { s.takeResponse with cmds := ws }) := by
  rw [stepGo, advance_eq_exec (s := s.takeResponse) hf hc]

theorem stepGo_inFlight_eq_exec {q : Option Request} (hf : s.inFlight = some { word := encode i, req := q }) :
    stepGo s = mapNext State.takeResponse (exec i { s.takeResponse with inFlight := none }) := by
  rw [stepGo, advance_inFlight_eq_exec (s := s.takeResponse) hf]

end Steps

/-! ## What is answered -/

/-- The seven response codes (30_encoding.md R66). -/
theorem response_code_mem (p : Response) : p.code ∈ ([0x0, 0x1, 0x2, 0x8, 0x9, 0xA, 0xB] : List (BitVec 4)) := by
  cases p with
  | ok => decide
  | tag _ => simp [Response.code]
  | status _ => simp [Response.code]
  | error e => cases e <;> decide

/-- The three commands that only read respond, and do nothing else (20_memory.md R47). -/
theorem effect_eq_respond {i : Instr} (h : i = .nop ∨ i = .stat ∨ i = .rdtag) (E : Oracle) (r : Regs) :
    ∃ p, effect E i r = respond r p := by
  rcases h with rfl | rfl | rfl
  · exact ⟨.ok, rfl⟩
  · exact ⟨.status r.status, rfl⟩
  · rcases Bool.eq_false_or_eq_true r.tagv with hv | hv
    · exact ⟨.tag r.tag, rdtagEffect_tag r hv⟩
    · exact ⟨.error .noTag, rdtagEffect_noTag r hv⟩

/-- Responding puts the response on its port and changes nothing else. -/
theorem commit_respond (s : State) (p : Response) : s.commit (respond s.regs p) = { s with rspPort := some p } := by
  simp [State.commit]

/-! ## The statements -/

/-- Settles O20: `n` holds leave the command in progress, and a `go` then finishes it as it would have run it. -/
theorem delayChangesNothing : Obligations.DelayChangesNothing := by
  intro n s cs _ hp _ hc
  cases n with
  | zero => rw [core_run_one, ← show s.cues = .go :: cs from hc]
  | succ n =>
    obtain ⟨_, hcues, _, _, _⟩ := acceptAndHold_frame { s with cues := .go :: cs }
    refine (core_run_add (n + 1) 1 (run_hold n hp hc)).trans ((core_run_one _).trans ?_)
    calc step (acceptAndHold { s with cues := .go :: cs })
        = stepGo { acceptAndHold { s with cues := .go :: cs } with cues := cs } := step_of_cues_cons hcues
      _ = stepGo (acceptAndHold { s with cues := cs }) := by rw [← acceptAndHold_withCues]
      _ = stepGo { s with cues := cs } := stepGo_acceptAndHold hp
      _ = step { s with cues := .go :: cs } := (step_of_cues_cons (s := { s with cues := .go :: cs }) rfl).symm

/-- Settles O24: the responses are those the words are answered with, one each. -/
theorem oneResponsePerWord : Obligations.OneResponsePerWord := by
  intro ws rest s q hc
  exact ⟨_, responsesTo Config.E ws s.regs, run_words ws rest q hc,
    ⟨q.noCommandInProgress, q.noResponseWaiting, q.onlyGo⟩, rfl, rfl, length_responsesTo ..,
    fun p _ => response_code_mem p⟩

/-- Settles O26, the number and the bytes from the same law for byte strings of any length. -/
theorem busOrder : Obligations.BusOrder :=
  ⟨fun b => ⟨toNat_blockBus b, extractLsb'_blockBus b⟩, extractLsb'_keyBus⟩

/-- Settles O27: a read sees the registers it leaves, so the second one gives the first one's response again. -/
theorem readsAreIdempotent : Obligations.ReadsAreIdempotent := by
  intro i s h
  obtain ⟨p, hp⟩ := effect_eq_respond h Config.E s.regs
  have once : exec i s = .next { s with rspPort := some p } := by rw [exec_eq_commit, hp, commit_respond]
  refine ⟨_, once, rfl, rfl, ?_⟩
  rw [exec_eq_commit, hp]
  exact congrArg _ (commit_respond { s with rspPort := some p } p)

/-- Settles O21: in every case the engine advances by the command decoded. -/
theorem stepRunsDecodedCommand : Obligations.StepRunsDecodedCommand := by
  refine ⟨fun s i => ⟨fun ws hf hc => ⟨fun h => ?_, fun cs h => ?_, fun cs h hp => ?_⟩,
    fun q hf => ⟨fun h => ?_, fun cs h => ?_⟩⟩, fun s w ws hw q hc => ?_⟩
  · exact (step_of_cues_nil h).trans (stepGo_eq_exec hf hc)
  · exact (step_of_cues_cons h).trans (stepGo_eq_exec (s := { s with cues := cs }) hf hc)
  · rw [step_of_cues_cons h, stepCue, stepRspStall_free (s := { s with cues := cs }) hp]
    exact advance_eq_exec hf hc
  · exact (step_of_cues_nil h).trans (stepGo_inFlight_eq_exec hf)
  · exact (step_of_cues_cons h).trans (stepGo_inFlight_eq_exec (s := { s with cues := cs }) hf)
  · cases hd : decode w with
    | legal i => rw [hd] at hw; cases hw
    | illegal c => simp [step_quiet q hc, wordEffect_of_illegal _ _ hd]

end Sys2Proof.Machine

/-! Theorems about the encoding of commands, the response words and the assembler (30_encoding.md): the shared facts
first, then each statement. -/

/-! ## Words, fields and the opcode table -/

namespace Sys2Proof

/-- A word's number, field by field (30_encoding.md R60). -/
theorem toNat_wordOf (f : CmdFields) :
    (wordOf f).toNat = f.op.toNat * 4096 + f.rsv.toNat * 256 + f.imm8.toNat := by
  have low : f.rsv.toNat <<< 8 ||| f.imm8.toNat = f.rsv.toNat * 256 + f.imm8.toNat := by
    rw [← Nat.shiftLeft_add_eq_or_of_lt f.imm8.isLt, Nat.shiftLeft_eq]
  have fits : f.rsv.toNat * 256 + f.imm8.toNat < 2 ^ 12 := by omega
  rw [wordOf, BitVec.toNat_append, BitVec.toNat_append, low, ← Nat.shiftLeft_add_eq_or_of_lt fits, Nat.shiftLeft_eq]
  omega

theorem wordOf_inj {f g : CmdFields} : wordOf f = wordOf g ↔ f = g :=
  ⟨fun h => by rw [← fieldsOf_wordOf f, h, fieldsOf_wordOf], congrArg wordOf⟩

/-- Two words meet field by field. -/
theorem wordOf_and_wordOf (f g : CmdFields) :
    wordOf f &&& wordOf g = wordOf ⟨f.op &&& g.op, f.rsv &&& g.rsv, f.imm8 &&& g.imm8⟩ := by
  rw [wordOf, wordOf, wordOf, BitVec.and_append, BitVec.and_append]

/-- The mask of the format B rows takes the operand out of a word and leaves the other fields (30_encoding.md R63). -/
theorem wordOf_and_mask (f : CmdFields) : wordOf f &&& 0xFF00 = wordOf { f with imm8 := 0 } := by
  have mask : (0xFF00 : Word16) = wordOf ⟨BitVec.allOnes 4, BitVec.allOnes 4, 0⟩ := rfl
  rw [mask, wordOf_and_wordOf, BitVec.and_allOnes, BitVec.and_allOnes]
  exact congrArg (fun imm8 => wordOf ⟨f.op, f.rsv, imm8⟩) BitVec.and_zero

theorem setWidth_wordOf (f : CmdFields) : (wordOf f).setWidth 8 = f.imm8 := by
  rw [BitVec.setWidth_eq_extractLsb' (by decide)]
  exact congrArg CmdFields.imm8 (fieldsOf_wordOf f)

/-- Decoding and encoding are inverse to each other (30_encoding.md R63, R65). -/
theorem decode_eq_legal_iff (w : Word16) (i : Instr) : decode w = .legal i ↔ w = encode i :=
  ⟨eq_encode_of_decode, fun h => h ▸ decode_encode i⟩

theorem encode_injective : Function.Injective encode := fun i j h => by
  have hd := decode_encode i
  rw [h, decode_encode j] at hd
  cases hd
  rfl

/-- A format Z row selects the one word that is its command's (30_encoding.md R63). -/
theorem decode_eq_legal_iff_formatZ (w : Word16) (i : Instr) : decode w = .legal i ↔ w &&& 0xFFFF = encode i := by
  rw [decode_eq_legal_iff, show w &&& 0xFFFF = w from BitVec.and_allOnes]

/-- A format B row selects the words with its opcode, and their low byte is the operand (30_encoding.md R63). -/
theorem eq_wordOf_iff_mask (w : Word16) (op : BitVec 4) (b : Byte) :
    w = wordOf ⟨op, 0, b⟩ ↔ w &&& 0xFF00 = wordOf ⟨op, 0, 0⟩ ∧ b = w.setWidth 8 := by
  obtain ⟨f, rfl⟩ : ∃ f, w = wordOf f := ⟨_, (wordOf_fieldsOf w).symm⟩
  rw [wordOf_and_mask, setWidth_wordOf, wordOf_inj, wordOf_inj, eq_comm (a := b)]
  cases f
  simp only [CmdFields.mk.injEq, and_assoc, and_true]

/-! ## How many words are legal -/

/-- All 256 operands. -/
def allBytes : List Byte := (List.finRange 256).map BitVec.ofFin

/-- All commands, each with every operand (30_encoding.md R62, R63). -/
def allInstrs : List Instr :=
  [Instr.nop, .clr, .init, .final, .rdtag, .stat] ++ (allBytes.map .keyb ++ allBytes.map .msgb)

theorem mem_allBytes (b : Byte) : b ∈ allBytes := List.mem_map.2 ⟨b.toFin, List.mem_finRange _, rfl⟩

theorem length_allBytes : allBytes.length = 256 := by rw [allBytes, List.length_map, List.length_finRange]

theorem nodup_allBytes : allBytes.Nodup := (List.nodup_finRange 256).map fun _ _ h => BitVec.ofFin.inj h

theorem mem_allInstrs (i : Instr) : i ∈ allInstrs := by
  cases i <;> simp [allInstrs, mem_allBytes]

theorem length_allInstrs : allInstrs.length = 518 := by
  rw [allInstrs, List.length_append, List.length_append, List.length_map, List.length_map, length_allBytes]
  rfl

theorem nodup_allInstrs : allInstrs.Nodup := by
  have keyb : (allBytes.map Instr.keyb).Nodup := nodup_allBytes.map fun _ _ h => Instr.keyb.inj h
  have msgb : (allBytes.map Instr.msgb).Nodup := nodup_allBytes.map fun _ _ h => Instr.msgb.inj h
  have formatB : (allBytes.map Instr.keyb ++ allBytes.map Instr.msgb).Nodup :=
    keyb.append msgb (by simp [List.Disjoint])
  exact List.Nodup.append (by decide) formatB (by simp [List.Disjoint])

theorem Decoded.isLegal_iff (d : Decoded) : d.isLegal = true ↔ ∃ i, d = .legal i := by
  cases d <;> simp [Decoded.isLegal]

theorem mem_map_encode_iff (w : Word16) : w ∈ allInstrs.map encode ↔ (decode w).isLegal = true := by
  rw [List.mem_map, Decoded.isLegal_iff]
  exact ⟨fun ⟨i, _, h⟩ => ⟨i, (decode_eq_legal_iff w i).2 h.symm⟩,
    fun ⟨i, h⟩ => ⟨i, mem_allInstrs i, ((decode_eq_legal_iff w i).1 h).symm⟩⟩

/-! ## Which words are illegal -/

/-- The opcodes of format Z (30_encoding.md R61), as R64 (c) lists them. -/
theorem mem_formatZ_opcodes (op : BitVec 4) :
    op.toNat ∈ [0x0, 0x1, 0x3, 0x5, 0x6, 0x7] ↔ op.toNat < 8 ∧ op ≠ 2 ∧ op ≠ 4 := by
  revert op
  decide

/-- The checks of the decoder that refuse a word, in their order (30_encoding.md R65). -/
theorem isLegal_decode (w : Word16) :
    (decode w).isLegal =
      if (fieldsOf w).rsv ≠ 0 then false
      else if 8 ≤ (fieldsOf w).op.toNat then false
      else if (fieldsOf w).op = 2 then true
      else if (fieldsOf w).op = 4 then true
      else if (fieldsOf w).imm8 ≠ 0 then false
      else true := by
  simp only [decode, apply_ite Decoded.isLegal]
  simp only [Decoded.isLegal, ite_self]

theorem isLegal_decode_eq_false_iff (w : Word16) :
    (decode w).isLegal = false ↔
      8 ≤ (fieldsOf w).op.toNat ∨ (fieldsOf w).rsv ≠ 0 ∨
        ((fieldsOf w).op.toNat ∈ [0x0, 0x1, 0x3, 0x5, 0x6, 0x7] ∧ (fieldsOf w).imm8 ≠ 0) := by
  rw [isLegal_decode, mem_formatZ_opcodes]
  split_ifs with hrsv hop h2 h4 himm
  · exact iff_of_true rfl (.inr (.inl hrsv))
  · exact iff_of_true rfl (.inl hop)
  · exact iff_of_false not_false (by tauto)
  · exact iff_of_false not_false (by tauto)
  · exact iff_of_true rfl (.inr (.inr ⟨⟨Nat.lt_of_not_le hop, h2, h4⟩, himm⟩))
  · exact iff_of_false not_false (by tauto)

end Sys2Proof

namespace Sys2Proof.Machine

/-- An illegal word is answered with `ERR_ILLEGAL_CMD`, whatever the state (60_exceptions.md R173). -/
theorem runWord_of_illegal {w : Word16} (h : (decode w).isLegal = false) (s : State) :
    runWord w s = .next { s with rspPort := some (.error .illegalCmd) } := by
  cases hd : decode w with
  | legal i => rw [hd] at h; cases h
  | illegal c =>
    rw [runWord_eq_commit, wordEffect_of_illegal _ _ hd]
    exact congrArg _ (commit_respond s (.error .illegalCmd))

/-! ## Hex digits -/

theorem hexDigit?_hexDigit (d : BitVec 4) : hexDigit? (hexDigit d) = some d := by
  revert d
  decide

/-- A byte string written in hex is read back (30_encoding.md R68). -/
theorem hexBytes?_flatMap_hexOfByte (bytes : List Byte) : hexBytes? (bytes.flatMap hexOfByte) = some bytes := by
  induction bytes with
  | nil => rfl
  | cons b bytes ih =>
    have byte : b.extractLsb' 4 4 ++ b.extractLsb' 0 4 = b :=
      (BitVec.extractLsb'_append_extractLsb'_eq_extractLsb' (by rfl)).trans BitVec.extractLsb'_eq_self
    simp [hexOfByte, hexBytes?, hexDigit?_hexDigit, ih, byte]

/-- The operand of a format B command is read back (30_encoding.md R67). -/
theorem byteOperand?_hexOfByte (b : Byte) : byteOperand? ('0' :: 'x' :: hexOfByte b) = some b := by
  have h := hexBytes?_flatMap_hexOfByte [b]
  rw [List.flatMap_singleton] at h
  simp [byteOperand?, h]

/-! ## The words of a line -/

/-- A character that stands inside a word of a line: no blank, no start of a comment, no end of the line. -/
def isWordChar (c : Char) : Bool := decide (c ∉ [' ', '\t', '\r', ';', '\n'])

theorem not_blank_of_isWordChar {c : Char} (h : isWordChar c = true) : ¬(c = ' ' ∨ c = '\t' ∨ c = '\r') := by
  rintro (rfl | rfl | rfl) <;> exact absurd h (by decide)

theorem isWordChar_hexDigit (d : BitVec 4) : isWordChar (hexDigit d) = true := by
  revert d
  decide

theorem all_isWordChar_hex (bytes : List Byte) : (bytes.flatMap hexOfByte).all isWordChar = true := by
  simp [List.all_flatMap, hexOfByte, isWordChar_hexDigit]

/-- The splitter collects the characters of a word. -/
theorem tokensFrom_append {t : List Char} (ht : t.all isWordChar = true) (cur cs : List Char) :
    tokensFrom cur (t ++ cs) = tokensFrom (t.reverse ++ cur) cs := by
  induction t generalizing cur with
  | nil => rfl
  | cons c t ih =>
    rw [List.all_cons, Bool.and_eq_true] at ht
    obtain ⟨hc, ht⟩ := ht
    rw [List.cons_append, tokensFrom, if_neg (not_blank_of_isWordChar hc), ih ht, List.reverse_cons, List.append_assoc,
      List.singleton_append]

theorem tokensFrom_word {t : List Char} (ht : t.all isWordChar = true) (hne : t ≠ []) : tokensFrom [] t = [t] := by
  have h := tokensFrom_append ht [] []
  rw [List.append_nil, List.append_nil] at h
  simp [h, tokensFrom, hne]

theorem tokensFrom_word_blank {t : List Char} (ht : t.all isWordChar = true) (hne : t ≠ []) (cs : List Char) :
    tokensFrom [] (t ++ ' ' :: cs) = t :: tokensFrom [] cs := by
  simp [tokensFrom_append ht, tokensFrom, hne]

/-- A line without a comment is split as it stands. -/
theorem lineTokens_of_no_comment {l : List Char} (h : ';' ∉ l) : lineTokens l = tokensFrom [] l := by
  have whole : l.takeWhile (· ≠ ';') = l := List.takeWhile_eq_self_iff.2 fun c hc => by
    simpa using fun e : c = ';' => h (e ▸ hc)
  rw [lineTokens, whole]

theorem not_mem_of_all_isWordChar {t : List Char} (ht : t.all isWordChar = true) {c : Char}
    (hc : isWordChar c = false) : c ∉ t := fun h => by
  rw [List.all_eq_true.1 ht c h] at hc
  cases hc

/-- A line that is one word. -/
theorem lineTokens_word {t : List Char} (ht : t.all isWordChar = true) (hne : t ≠ []) : lineTokens t = [t] := by
  rw [lineTokens_of_no_comment (not_mem_of_all_isWordChar ht rfl), tokensFrom_word ht hne]

/-- A line that is a word and, after a blank, its operand, which may be missing. -/
theorem lineTokens_word_operand {t a : List Char} (ht : t.all isWordChar = true) (hne : t ≠ [])
    (ha : a.all isWordChar = true) : lineTokens (t ++ ' ' :: a) = t :: if a = [] then [] else [a] := by
  have noComment : ';' ∉ t ++ ' ' :: a := by
    simp [not_mem_of_all_isWordChar ht, not_mem_of_all_isWordChar ha, isWordChar]
  rw [lineTokens_of_no_comment noComment, tokensFrom_word_blank ht hne]
  split
  · next h => subst h; rfl
  · next h => rw [tokensFrom_word ha h]

theorem linesFrom_of_no_newline {l : List Char} (h : '\n' ∉ l) (cur : List Char) :
    linesFrom cur l = [cur.reverse ++ l] := by
  induction l generalizing cur with
  | nil => simp [linesFrom]
  | cons c l ih =>
    obtain ⟨hc, hl⟩ := not_or.1 (mt List.mem_cons.2 h)
    rw [linesFrom, if_neg (Ne.symm hc), ih hl, List.reverse_cons, List.append_assoc, List.singleton_append]

/-! ## The commands of a line -/

/-- The names of the pseudo-instructions (30_encoding.md R68). -/
def pseudoNames : List (List Char) := ["KEY".toList, "MSG".toList, "CONSTRUCT".toList, "CALCULATE".toList]

/-- Each is a word, and none is the mnemonic of a command. -/
theorem pseudoNames_spec : ∀ t ∈ pseudoNames, t.all isWordChar = true ∧ t ≠ [] ∧ bareCommand? t = none ∧
    t ≠ "KEYB".toList ∧ t ≠ "MSGB".toList := by
  decide

section Rows
variable (bytes : List Byte)

theorem pseudo?_key : pseudo? "KEY".toList bytes = some (keyCommands bytes) := by
  simp [pseudo?]

theorem pseudo?_msg : pseudo? "MSG".toList bytes = some (msgCommands bytes) := by
  simp [pseudo?]

theorem pseudo?_construct : pseudo? "CONSTRUCT".toList bytes = some (constructCommands bytes) := by
  simp [pseudo?]

theorem pseudo?_calculate : pseudo? "CALCULATE".toList bytes = some (calculateCommands bytes) := by
  simp [pseudo?]

end Rows

section Lines
variable {l t a : List Char}

theorem parseLine?_of_bare {i : Instr} (hl : lineTokens l = [t]) (h : bareCommand? t = some i) :
    parseLine? l = some [i] := by
  simp [parseLine?, hl, h]

theorem parseLine?_of_no_operand (hl : lineTokens l = [t]) (h : bareCommand? t = none) :
    parseLine? l = pseudo? t [] := by
  simp [parseLine?, hl, h]

theorem parseLine?_of_operand (hl : lineTokens l = [t, a]) (keyb : t ≠ "KEYB".toList) (msgb : t ≠ "MSGB".toList) :
    parseLine? l = (hexBytes? a).bind (pseudo? t) := by
  rw [parseLine?, hl]
  exact (if_neg keyb).trans (if_neg msgb)

theorem parseLine?_of_keyb (hl : lineTokens l = ["KEYB".toList, a]) :
    parseLine? l = (byteOperand? a).map fun b => [.keyb b] := by
  rw [parseLine?, hl]
  exact if_pos rfl

theorem parseLine?_of_msgb (hl : lineTokens l = ["MSGB".toList, a]) :
    parseLine? l = (byteOperand? a).map fun b => [.msgb b] := by
  rw [parseLine?, hl]
  exact (if_neg (by decide)).trans (if_pos rfl)

/-- A pseudo-instruction, its blank and its digits: applied to the bytes they spell, to none if there are no digits
(30_encoding.md R68). -/
theorem parseLine?_pseudo (h : t ∈ pseudoNames) (hl : l = t ++ [' ']) (bytes : List Byte) :
    parseLine? (l ++ bytes.flatMap hexOfByte) = pseudo? t bytes := by
  rw [hl, List.append_assoc, List.singleton_append]
  obtain ⟨ht, hne, bare, keyb, msgb⟩ := pseudoNames_spec t h
  have split := lineTokens_word_operand ht hne (all_isWordChar_hex bytes)
  have read := hexBytes?_flatMap_hexOfByte bytes
  by_cases h : bytes.flatMap hexOfByte = []
  · rw [h] at read
    cases read
    exact parseLine?_of_no_operand (split.trans (by rw [if_pos h])) bare
  · rw [parseLine?_of_operand (split.trans (by rw [if_neg h])) keyb msgb, read, Option.bind_some]

/-- A text that is one line assembles to the words of that line's commands. -/
theorem assemble?_of_parseLine? {is : List Instr} (hl : '\n' ∉ l) (h : parseLine? l = some is) :
    assemble? l = some (is.map encode) := by
  simp [assemble?, linesFrom_of_no_newline hl, parseLines?, h]

end Lines

/-! ## Printed commands -/

/-- The operand of a format B command as printed (30_encoding.md R67). -/
theorem all_isWordChar_operand (b : Byte) : ('0' :: 'x' :: hexOfByte b).all isWordChar = true := by
  have digits := all_isWordChar_hex [b]
  rw [List.flatMap_singleton] at digits
  rw [List.all_cons, List.all_cons, digits]
  rfl

theorem all_isWordChar_mnemonic (i : Instr) : (mnemonic i).toList.all isWordChar = true := by
  cases i <;> simp only [mnemonic] <;> decide

theorem mnemonic_ne_nil (i : Instr) : (mnemonic i).toList ≠ [] := by
  cases i <;> simp only [mnemonic] <;> decide

/-- A mnemonic and its printed operand are the two words of their line. -/
theorem lineTokens_mnemonic_operand (i : Instr) (b : Byte) :
    lineTokens ((mnemonic i).toList ++ ' ' :: '0' :: 'x' :: hexOfByte b) =
      [(mnemonic i).toList, '0' :: 'x' :: hexOfByte b] := by
  rw [lineTokens_word_operand (all_isWordChar_mnemonic i) (mnemonic_ne_nil i) (all_isWordChar_operand b),
    if_neg (List.cons_ne_nil _ _)]

/-- A command of format Z is its mnemonic alone. -/
theorem parseLine?_mnemonic {i : Instr} (h : bareCommand? (mnemonic i).toList = some i) :
    parseLine? (mnemonic i).toList = some [i] :=
  parseLine?_of_bare (lineTokens_word (all_isWordChar_mnemonic i) (mnemonic_ne_nil i)) h

/-- A printed command is one line. -/
theorem newline_not_mem_printCommand (i : Instr) : '\n' ∉ printCommand i := by
  have name : '\n' ∉ (mnemonic i).toList := not_mem_of_all_isWordChar (all_isWordChar_mnemonic i) rfl
  have operand (b : Byte) : '\n' ∉ ' ' :: '0' :: 'x' :: hexOfByte b :=
    List.not_mem_cons_of_ne_of_not_mem (by decide) (not_mem_of_all_isWordChar (all_isWordChar_operand b) rfl)
  rw [printCommand, List.mem_append, not_or]
  refine ⟨name, ?_⟩
  cases i.format with
  | z => exact List.not_mem_nil
  | b => exact operand _

/-- A printed command is read back (30_encoding.md R67). -/
theorem parseLine?_printCommand (i : Instr) : parseLine? (printCommand i) = some [i] := by
  cases i with
  | nop => exact parseLine?_mnemonic (i := .nop) (by decide)
  | clr => exact parseLine?_mnemonic (i := .clr) (by decide)
  | keyb b =>
    refine (parseLine?_of_keyb (lineTokens_mnemonic_operand (.keyb b) b)).trans ?_
    rw [byteOperand?_hexOfByte, Option.map_some]
  | init => exact parseLine?_mnemonic (i := .init) (by decide)
  | msgb b =>
    refine (parseLine?_of_msgb (lineTokens_mnemonic_operand (.msgb b) b)).trans ?_
    rw [byteOperand?_hexOfByte, Option.map_some]
  | final => exact parseLine?_mnemonic (i := .final) (by decide)
  | rdtag => exact parseLine?_mnemonic (i := .rdtag) (by decide)
  | stat => exact parseLine?_mnemonic (i := .stat) (by decide)

/-! ## The response words (30_encoding.md R66) -/

/-- The status view stands in the last two bytes, the bytes before it are zero. -/
theorem getElem_status_data (v : Word16) (i : Nat) (h : i < 16) :
    (Response.status v).data[i] = if i = 15 then v.extractLsb' 0 8 else if i = 14 then v.extractLsb' 8 8 else 0 := by
  simp only [Response.data, Vector.getElem_set, getElem_zero16, eq_comm (a := i)]

/-- Bit 3 marks the errors. -/
theorem code_bit_three (p : Response) : p.code.getLsbD 3 = p.isError := by
  cases p with
  | ok => rfl
  | tag _ => simp [Response.code, Response.isError]
  | status _ => simp [Response.code, Response.isError]
  | error e => cases e <;> rfl

/-! ## The statements -/

/-- Settles O1: a word that decodes has the command's fields, and the fields are the word. -/
theorem decodeEncodeAgree : Obligations.DecodeEncodeAgree := decode_eq_legal_iff

/-- Settles O2: a row selects its command's words, and the words of the 518 commands are the legal ones. -/
theorem opcodeMapByMaskAndMatch : Obligations.OpcodeMapByMaskAndMatch := by
  refine ⟨fun w => ⟨decode_eq_legal_iff_formatZ w .nop, decode_eq_legal_iff_formatZ w .clr, fun b => ?_,
    decode_eq_legal_iff_formatZ w .init, fun b => ?_, decode_eq_legal_iff_formatZ w .final,
    decode_eq_legal_iff_formatZ w .rdtag, decode_eq_legal_iff_formatZ w .stat⟩,
    allInstrs.map encode, nodup_allInstrs.map encode_injective, ?_, mem_map_encode_iff⟩
  · exact (decode_eq_legal_iff w _).trans (eq_wordOf_iff_mask w 2 b)
  · exact (decode_eq_legal_iff w _).trans (eq_wordOf_iff_mask w 4 b)
  · rw [List.length_map, length_allInstrs]

/-- Settles O3: the classes are the decoder's checks, and a refused word reaches no command. -/
theorem illegalWordsAreRefused : Obligations.IllegalWordsAreRefused :=
  fun w => ⟨isLegal_decode_eq_false_iff w, runWord_of_illegal⟩

/-- Settles O7: the printed line splits into the mnemonic and the operand, and each is read back. -/
theorem assemblerReadsPrintedCommands : Obligations.AssemblerReadsPrintedCommands := fun i =>
  have read := parseLine?_printCommand i
  ⟨read, assemble?_of_parseLine? (newline_not_mem_printCommand i) read⟩

/-- Settles O8: the line splits into the pseudo-instruction and the digits, and the digits spell the bytes. -/
theorem pseudoInstructionsExpand : Obligations.PseudoInstructionsExpand := fun bytes =>
  ⟨(parseLine?_pseudo (t := "KEY".toList) (by simp [pseudoNames]) (by decide) bytes).trans (pseudo?_key bytes),
    (parseLine?_pseudo (t := "MSG".toList) (by simp [pseudoNames]) (by decide) bytes).trans (pseudo?_msg bytes),
    (parseLine?_pseudo (t := "CONSTRUCT".toList) (by simp [pseudoNames]) (by decide) bytes).trans
      (pseudo?_construct bytes),
    (parseLine?_pseudo (t := "CALCULATE".toList) (by simp [pseudoNames]) (by decide) bytes).trans
      (pseudo?_calculate bytes)⟩

/-- Settles O22: the engine gets on under every cue. -/
theorem machineNeverStops : Obligations.MachineNeverStops := exists_step_next

/-- Settles O4: splitting and joining are inverse to each other, and the fields are the word's digits. -/
theorem wordIsItsFields : Obligations.WordIsItsFields := ⟨wordOf_fieldsOf, fieldsOf_wordOf, toNat_wordOf⟩

/-- Settles O5: each legal word is its command's, and each illegal one fails the check listed. -/
theorem listedWordsDecode : Obligations.ListedWordsDecode :=
  ⟨decode_encode .nop, decode_encode .clr, decode_encode (.keyb 0x2b), decode_encode (.keyb 0xff),
    decode_encode .init, decode_encode (.msgb 0x80), decode_encode .final, decode_encode .rdtag, decode_encode .stat,
    by decide, by decide, by decide, by decide⟩

/-- Settles O6, case by case of the response. -/
theorem responseWords : Obligations.ResponseWords := by
  refine ⟨⟨rfl, rfl⟩, fun _ => ⟨rfl, rfl⟩, fun v => ⟨rfl, fun i h => ?_, ?_, ?_⟩, ⟨rfl, rfl, rfl, rfl⟩, fun _ => rfl,
    code_bit_three⟩
  · rw [getElem_status_data, if_neg (by omega), if_neg (by omega)]
  · exact getElem_status_data v 14 (by decide)
  · exact getElem_status_data v 15 (by decide)

end Sys2Proof.Machine

/-! Theorems about the derivation of the subkeys (40_subkey_derivation.md): the shared facts first, then each
statement. -/

/-! ## The words of format B -/

namespace Sys2Proof

/-- The word of a format B command is its opcode's word with the operand set in (30_encoding.md R63). -/
theorem wordOf_formatB (op : BitVec 4) (b : Byte) : wordOf ⟨op, 0, b⟩ = wordOf ⟨op, 0, 0⟩ ||| b.setWidth 16 := by
  have operand : b.setWidth 16 = wordOf ⟨0, 0, b⟩ := by
    apply BitVec.eq_of_toNat_eq
    rw [toNat_wordOf, BitVec.toNat_setWidth]
    simp only [BitVec.reduceToNat]
    omega
  rw [operand, wordOf, wordOf, wordOf, BitVec.or_append, BitVec.or_append]
  simp

end Sys2Proof

namespace Sys2Proof.Machine

/-! ## Block operations on the 128-bit bus (20_memory.md R44), where they are bit vector operations -/

theorem blockBus_injective : Function.Injective blockBus := fun a b h =>
  block_ext fun i hi => by rw [← extractLsb'_blockBus a i hi, h, extractLsb'_blockBus b i hi]

theorem blockBus_zero16 : blockBus zero16 = 0 := by decide

theorem blockBus_rb : blockBus rb = 0x87 := by decide

theorem blockBus_xor16 (a b : Block) : blockBus (xor16 a b) = blockBus a ^^^ blockBus b := by
  apply BitVec.eq_of_getLsbD_eq
  intro j hj
  simp [getLsbD_blockBus _ j hj]

theorem xor16_zero16 (a : Block) : xor16 a zero16 = a := block_ext fun i hi => by simp

theorem msb_blockBus (a : Block) : (blockBus a).msb = msb a := by
  rw [BitVec.msb_eq_getLsbD_last, getLsbD_blockBus _ _ (by decide)]
  rfl

theorem getLsbD_zero_blockBus (a : Block) : (blockBus a).getLsbD 0 = a[15].getLsbD 0 :=
  getLsbD_blockBus a 0 (by decide)

/-- The byte-wise shift of 42_block_utilities.md R122 is the shift of the bus: the lowest bit of a byte is carried in
from the byte after it. -/
theorem blockBus_shl1 (a : Block) : blockBus (shl1 a) = blockBus a <<< 1 := by
  apply BitVec.eq_of_getLsbD_eq
  intro j hj
  rw [getLsbD_blockBus _ j hj, getElem_shl1, BitVec.getLsbD_shiftLeft, decide_eq_true hj]
  rcases Nat.eq_zero_or_pos j with rfl | pos
  · simp
  rw [getLsbD_blockBus a (j - 1) (by omega), decide_eq_false (by omega)]
  by_cases carried : j % 8 = 0
  · have byte : 15 - (j - 1) / 8 = 15 - j / 8 + 1 := by omega
    have bit : (j - 1) % 8 = 7 := by omega
    have inBlock : 15 - j / 8 + 1 < 16 := by omega
    simp [byte, bit, carried, inBlock]
  · have byte : 15 - (j - 1) / 8 = 15 - j / 8 := by omega
    have bit : (j - 1) % 8 = j % 8 - 1 := by omega
    have inByte : j % 8 < 8 := by omega
    have noCarry (x : Byte) : x.getLsbD (7 + j % 8) = false := x.getLsbD_of_ge _ (by omega)
    split <;> simp [byte, bit, carried, inByte, noCarry, -BitVec.getLsbD_eq_getElem]

/-- `SHL1` doubles the number, less the bit shifted out. -/
theorem val_shl1 (a : Block) : val (shl1 a) = (2 * val a) % 2 ^ 128 := by
  rw [← toNat_blockBus, blockBus_shl1, BitVec.toNat_shiftLeft, Nat.shiftLeft_eq, toNat_blockBus, Nat.mul_comm, pow_one]

/-- `MSB(a)` by the number (42_block_utilities.md R123). -/
theorem msb_eq_decide (a : Block) : msb a = decide (2 ^ 127 ≤ val a) := by
  rw [← msb_blockBus, BitVec.msb_eq_decide, toNat_blockBus]

/-! ## `DBL` and its inverse (R81, R88) -/

/-- What `DBL` XORs in after the shift, on the bus: `RB` or nothing (R81, R82). -/
def reduction (c : Bool) : BitVec 128 := if c then 0x87 else 0

/-- `RB` has bit 0 set, so that bit tells whether it was XORed in (R88). -/
theorem getLsbD_zero_reduction (c : Bool) : (reduction c).getLsbD 0 = c := by cases c <;> rfl

theorem xor_reduction_xor_reduction (v : BitVec 128) (c : Bool) : v ^^^ reduction c ^^^ reduction c = v := by
  rw [BitVec.xor_assoc, BitVec.xor_self, BitVec.xor_zero]

theorem blockBus_ite_rb (c : Bool) : blockBus (if c then rb else zero16) = reduction c := by
  rw [apply_ite blockBus, blockBus_rb, blockBus_zero16, reduction]

theorem blockBus_dbl (a : Block) : blockBus (dbl a) = blockBus a <<< 1 ^^^ reduction (msb a) := by
  rw [dbl, blockBus_xor16, blockBus_shl1, blockBus_ite_rb]

theorem val_dbl (a : Block) : val (dbl a) = (2 * val a) % 2 ^ 128 ^^^ (reduction (msb a)).toNat := by
  rw [← val_shl1, ← toNat_blockBus, blockBus_dbl, BitVec.toNat_xor, ← blockBus_shl1, toNat_blockBus]

theorem getLsbD_zero_dbl (a : Block) : (dbl a)[15].getLsbD 0 = msb a := by
  rw [← getLsbD_zero_blockBus, blockBus_dbl, BitVec.getLsbD_xor, getLsbD_zero_reduction]
  simp

/-- A shift right by one bit, with `c` as the new top bit. -/
def shiftInTop (c : Bool) (v : BitVec 128) : BitVec 128 := (v.extractLsb' 1 127).cons c

theorem getLsbD_shiftInTop (c : Bool) (v : BitVec 128) (j : Nat) (h : j < 128) :
    (shiftInTop c v).getLsbD j = if j = 127 then c else v.getLsbD (j + 1) := by
  rw [shiftInTop, BitVec.getLsbD_cons, BitVec.getLsbD_extractLsb']
  split
  · rfl
  · rw [decide_eq_true (by omega), Bool.true_and, Nat.add_comm]

theorem msb_shiftInTop (c : Bool) (v : BitVec 128) : (shiftInTop c v).msb = c := BitVec.msb_cons

/-- Shifting right undoes a shift left if the bit shifted out is put back. -/
theorem shiftInTop_shiftLeft (v : BitVec 128) : shiftInTop v.msb (v <<< 1) = v := by
  apply BitVec.eq_of_getLsbD_eq
  intro j hj
  rw [getLsbD_shiftInTop _ _ j hj]
  split
  · next top => rw [top, BitVec.msb_eq_getLsbD_last]
  · next below => simp [show j + 1 < 128 by omega, hj]

/-- Shifting left undoes a shift right that lost no bit. -/
theorem shiftLeft_shiftInTop (c : Bool) {v : BitVec 128} (even : v.getLsbD 0 = false) : shiftInTop c v <<< 1 = v := by
  apply BitVec.eq_of_getLsbD_eq
  intro j hj
  rw [BitVec.getLsbD_shiftLeft, decide_eq_true hj]
  cases j with
  | zero => exact even.symm
  | succ j =>
    rw [decide_eq_false (by omega), Nat.add_sub_cancel, getLsbD_shiftInTop _ _ j (by omega), if_neg (by omega)]
    rfl

/-- A block with the `RB` that `DBL` XORed in, if it did, taken out again (R88). -/
def unreduced (b : Block) : Block := xor16 b (if b[15].getLsbD 0 then rb else zero16)

theorem blockBus_unreduced (b : Block) : blockBus (unreduced b) = blockBus b ^^^ reduction (b[15].getLsbD 0) := by
  rw [unreduced, blockBus_xor16, blockBus_ite_rb]

/-- The lowest bit of a byte goes to the top of the byte after it, bit 0 of the last byte to the top of the first. -/
theorem getElem_halve (b : Block) (i : Nat) (h : i < 16) :
    (halve b)[i] = (unreduced b)[i] >>> 1 |||
      (if i = 0 then BitVec.setWidth 8 (BitVec.ofBool (b[15].getLsbD 0)) else (unreduced b)[i - 1]) <<< 7 := by
  rcases Bool.eq_false_or_eq_true (b[15].getLsbD 0) with reduced | kept
  · simp only [halve, unreduced, Vector.getElem_ofFn, reduced, if_true]
    congr 1
    split <;> rfl
  · simp only [halve, unreduced, Vector.getElem_ofFn, kept, Bool.false_eq_true, if_false, xor16_zero16]
    congr 1
    split <;> rfl

theorem blockBus_halve (b : Block) :
    blockBus (halve b) = shiftInTop (b[15].getLsbD 0) (blockBus (unreduced b)) := by
  apply BitVec.eq_of_getLsbD_eq
  intro j hj
  rw [getLsbD_blockBus _ j hj, getElem_halve, getLsbD_shiftInTop _ _ j hj, BitVec.getLsbD_or,
    BitVec.getLsbD_ushiftRight, BitVec.getLsbD_shiftLeft]
  by_cases top : j = 127
  · subst top
    simp
  rw [if_neg top, getLsbD_blockBus _ (j + 1) (by omega)]
  by_cases carried : j % 8 = 7
  · have byte : 15 - (j + 1) / 8 = 15 - j / 8 - 1 := by omega
    have bit : (j + 1) % 8 = 0 := by omega
    have notFirst : 15 - j / 8 ≠ 0 := by omega
    simp [byte, bit, carried, notFirst]
  · have byte : 15 - (j + 1) / 8 = 15 - j / 8 := by omega
    have bit : (j + 1) % 8 = 1 + j % 8 := by omega
    have noCarry : j % 8 < 7 := by omega
    simp [byte, bit, noCarry]

theorem msb_halve (b : Block) : msb (halve b) = b[15].getLsbD 0 := by
  rw [← msb_blockBus, blockBus_halve, msb_shiftInTop]

theorem halve_dbl (a : Block) : halve (dbl a) = a := by
  apply blockBus_injective
  rw [blockBus_halve, blockBus_unreduced, getLsbD_zero_dbl, blockBus_dbl, xor_reduction_xor_reduction, ← msb_blockBus,
    shiftInTop_shiftLeft]

theorem dbl_halve (b : Block) : dbl (halve b) = b := by
  have even : (blockBus (unreduced b)).getLsbD 0 = false := by
    rw [blockBus_unreduced, BitVec.getLsbD_xor, getLsbD_zero_reduction, getLsbD_zero_blockBus, Bool.xor_self]
  apply blockBus_injective
  rw [blockBus_dbl, msb_halve, blockBus_halve, shiftLeft_shiftInTop _ even, blockBus_unreduced,
    xor_reduction_xor_reduction]

theorem dbl_bijective : Function.Bijective dbl :=
  Function.bijective_iff_has_inverse.2 ⟨halve, halve_dbl, dbl_halve⟩

theorem dbl_zero16 : dbl zero16 = zero16 := by decide

/-! ## Commands that only respond -/

/-- A command that calls no oracle leaves its registers and its response, and nothing else changes. -/
theorem exec_of_respond {i : Instr} {s : State} {r : Regs} {p : Response}
    (h : effect Config.E i s.regs = respond r p) : exec i s = .next { s with regs := r, rspPort := some p } := by
  rw [exec_eq_commit, h]
  simp [State.commit]

/-- Where there is room, the checked and the unchecked write of a key byte agree. -/
theorem setIfInBounds_eq_set (key : KeyArray) (n : Nat) (h : n < 32) (b : Byte) :
    key.setIfInBounds n b = key.set n b h := by
  ext i hi
  rw [Vector.getElem_set, Vector.getElem_setIfInBounds]

/-! ## The key that is being given (R83), and `CONSTRUCT` (R87) -/

theorem getD_snoc (l : List Byte) (b : Byte) (i : Nat) :
    (l ++ [b]).getD i 0 = if l.length = i then b else l.getD i 0 := by
  rcases Nat.lt_trichotomy l.length i with after | last | before
  · rw [if_neg (by omega), List.getD_eq_default _ _ (by simp; omega), List.getD_eq_default _ _ (by omega)]
  · rw [if_pos last, ← last, List.getD_append_right _ _ _ _ (Nat.le_refl _), Nat.sub_self, List.getD_cons_zero]
  · rw [if_neg (by omega), List.getD_append _ _ _ _ before]

/-- The registers hold the key bytes given since reset and are otherwise as at reset: `KEY` the bytes that fit, `KLEN`
their number, with 33 for every number above 32 (R83). -/
structure HoldsKey (k : List Byte) (r : Regs) : Prop where
  elseReset : r = { Regs.reset with key := r.key, klen := r.klen }
  klen : r.klen.toNat = min k.length 33
  key : ∀ i (h : i < 32), r.key[i] = k.getD i 0

theorem holdsKey_nil : HoldsKey [] Regs.reset where
  elseReset := rfl
  klen := rfl
  key i h := getElem_zero32 i h

section HoldsKey
variable {k : List Byte} {r : Regs} (h : HoldsKey k r)
include h

theorem HoldsKey.unkeyed : r.keyed = false := by
  rw [h.elseReset]
  rfl

theorem HoldsKey.no_tag : r.tag = zero16 ∧ r.tagv = false := by
  rw [h.elseReset]
  exact ⟨rfl, rfl⟩

/-- `KEYB b` adds its byte. -/
theorem HoldsKey.keyb (b : Byte) : HoldsKey (k ++ [b]) (keybEffect b r).regs := by
  have count := h.klen
  rcases Nat.lt_or_ge r.klen.toNat 32 with room | full
  · have len : r.klen.toNat = k.length := by omega
    rw [keybEffect_room r b h.unkeyed room, respond_regs]
    refine ⟨?_, ?_, fun i hi => ?_⟩
    · conv_lhs => rw [appendKeyByte, h.elseReset]
      rfl
    · rw [appendKeyByte_klen, BitVec.toNat_add, List.length_append, List.length_singleton]
      simp only [BitVec.reduceToNat]
      omega
    · rw [appendKeyByte_key, len, Vector.getElem_setIfInBounds, getD_snoc, h.key i hi]
  · rw [keybEffect_full r b h.unkeyed full, respond_regs]
    refine ⟨?_, ?_, fun i hi => ?_⟩
    · conv_lhs => rw [h.elseReset]
    · rw [List.length_append, List.length_singleton]
      simp only [BitVec.reduceToNat]
      omega
    · rw [h.key i hi, List.getD_append _ _ _ _ (by omega)]

/-- The key handed to the oracle is the one given, if it fits. -/
theorem HoldsKey.keySlice_eq (fits : k.length ≤ 32) : keySlice r = k := by
  have count := h.klen
  have len : r.klen.toNat = k.length := by omega
  apply List.ext_getElem
  · simp [keySlice, len, fits]
  · intro i _ hi
    simp [keySlice, h.key i (by omega), hi]

/-- `KLEN` tells the legal key lengths from every other, those above 32 included (R85). -/
theorem HoldsKey.klen_legal_iff : r.klen.toNat ∈ Config.keyLengths ↔ k.length ∈ Config.keyLengths := by
  rw [h.klen]
  simp only [Config.keyLengths, List.mem_cons, List.not_mem_nil, or_false]
  omega

theorem HoldsKey.init_of_legal (E : Oracle) (legal : k.length ∈ Config.keyLengths) :
    initEffect E r = { regs := constructed E r, calls := [encCall E r zero16], rsp := .ok } :=
  initEffect_ok E r h.unkeyed (h.klen_legal_iff.2 legal)

/-- An `INIT` that fails leaves the registers of reset: it wipes the key, and nothing else was set. -/
theorem HoldsKey.init_of_bad (E : Oracle) (bad : k.length ∉ Config.keyLengths) :
    initEffect E r = raise Regs.reset .invalidKeySize := by
  rw [initEffect_badLength E r h.unkeyed (mt h.klen_legal_iff.1 bad), h.elseReset]
  rfl

end HoldsKey

/-- `KEY l` adds its bytes, one `KEYB` each. -/
theorem HoldsKey.keyCommands (E : Oracle) {k : List Byte} {r : Regs} (h : HoldsKey k r) (l : List Byte) :
    HoldsKey (k ++ l) (regsAfter E ((keyCommands l).map encode) r) := by
  induction l generalizing k r with
  | nil => rwa [List.append_nil]
  | cons b l ih =>
    have rest := ih (h.keyb b)
    rw [List.append_assoc, List.singleton_append] at rest
    rw [Machine.keyCommands, List.map_cons, List.map_cons, regsAfter, wordEffect_encode]
    exact rest

theorem length_constructCommands (k : List Byte) : (constructCommands k).length = k.length + 2 := by
  simp [constructCommands, keyCommands]

/-- `CONSTRUCT k` comes down to an `INIT` on an engine that holds the key `k`, whatever the registers were. -/
theorem exists_holdsKey_construct (E : Oracle) (k : List Byte) (r : Regs) :
    ∃ r', HoldsKey k r' ∧
      regsAfter E ((constructCommands k).map encode) r = (initEffect E r').regs ∧
      (responsesTo E ((constructCommands k).map encode) r).getLast? = some (initEffect E r').rsp := by
  have words : (constructCommands k).map encode = encode .clr :: ((keyCommands k).map encode ++ [encode .init]) := by
    simp [constructCommands]
  have cleared : (wordEffect E (encode .clr) r).regs = Regs.reset := by
    rw [wordEffect_encode]
    rfl
  refine ⟨_, holdsKey_nil.keyCommands E k, ?_, ?_⟩
  · rw [words, regsAfter, cleared, regsAfter_append, regsAfter, regsAfter, wordEffect_encode]
    rfl
  · rw [words, responsesTo, cleared, responsesTo_append, responsesTo, responsesTo, wordEffect_encode,
      ← List.cons_append, List.getLast?_concat]
    rfl

/-! ## The statements -/

/-- Settles O46: `RB` is zero outside byte 15, and there the mask selects it. -/
theorem doublingSelectsByMask : Obligations.DoublingSelectsByMask := by
  rintro a _ rfl
  refine ⟨fun i h => ?_, ?_⟩
  · rw [getElem_dbl, if_neg (Nat.ne_of_lt h), ite_self]
    exact BitVec.xor_zero
  · rw [getElem_dbl, if_pos rfl, apply_ite (0x87 &&& ·)]
    rfl

/-- Settles O47, on the bus: a shift and an XOR that bit 0 of the result tells. -/
theorem doublingIsInvertible : Obligations.DoublingIsInvertible := by
  refine ⟨dbl_bijective, fun a b => ⟨fun low => ?_, fun high => ?_, getLsbD_zero_dbl a, halve_dbl a, dbl_halve b,
    dbl_bijective.injective.eq_iff' dbl_zero16⟩⟩
  · rw [val_dbl, msb_eq_decide, decide_eq_false (Nat.not_le.2 low)]
    exact Nat.xor_zero _
  · rw [val_dbl, msb_eq_decide, decide_eq_true high]
    rfl

/-- Settles O56: the run leaves what `INIT` leaves on an engine that holds the key `k`. -/
theorem constructMatchesSource : Obligations.ConstructMatchesSource := by
  intro s k rest q hc
  obtain ⟨r, holds, regs, rsp⟩ := exists_holdsKey_construct Config.E k s.regs
  have run := run_words ((constructCommands k).map encode) rest q hc
  rw [List.length_map, length_constructCommands] at run
  refine ⟨_, run, ⟨q.noCommandInProgress, q.noResponseWaiting, q.onlyGo⟩, rfl, fun legal => ?_, fun bad => ?_⟩
  · rw [holds.init_of_legal _ legal] at regs rsp
    have fits : k.length ≤ 32 := by
      simp only [List.mem_cons, List.not_mem_nil, or_false] at legal
      omega
    have slice := holds.keySlice_eq fits
    obtain ⟨tag, tagv⟩ := holds.no_tag
    refine ⟨by simp [rsp], ?_⟩
    dsimp only
    rw [regs]
    refine ⟨constructed_keyed .., (keySlice_congr (constructed_key ..) (constructed_klen ..)).trans slice, ?_,
      (constructed_subkeys ..).trans (by rw [slice]), atBoundary_constructed .., (constructed_tag ..).trans tag,
      (constructed_tagv ..).trans tagv⟩
    rw [constructed_klen, holds.klen]
    omega
  · rw [holds.init_of_bad _ bad] at regs rsp
    exact ⟨by simp [rsp], regs⟩

/-- Settles O30, by the three cases of `KEYB`. -/
theorem keybAppendsKeyByte : Obligations.KeybAppendsKeyByte := by
  intro b s
  refine ⟨wordOf_formatB 2 b, fun keyed => exec_of_respond (keybEffect_keyed _ b keyed), fun unkeyed room => ?_,
    fun unkeyed full => exec_of_respond (keybEffect_full _ b unkeyed full)⟩
  rw [← setIfInBounds_eq_set]
  exact exec_of_respond (keybEffect_room _ b unkeyed room)

/-- Settles O31, by the three cases of `INIT`. -/
theorem initConstructs : Obligations.InitConstructs := by
  refine ⟨rfl, fun s => ⟨fun keyed => exec_of_respond (initEffect_keyed _ _ keyed),
    fun unkeyed bad => exec_of_respond (initEffect_badLength _ _ unkeyed bad), fun unkeyed legal => ?_⟩⟩
  rw [exec_eq_commit, effect, initEffect_ok _ _ unkeyed legal]
  rfl

/-- Settles O49: the definition says so. -/
theorem deriveDoublesTwice : Obligations.DeriveDoublesTwice := fun _ _ => rfl

end Sys2Proof.Machine

/-! Theorems about the computation of tags (41_tag_computation.md): the shared facts first, then each statement. -/

namespace Sys2Proof.Machine

/-! ## The pieces of a message, and how the last one is closed (R101, R102) -/

theorem blockCount_eq_max (m : List Byte) : blockCount m = max 1 ((m.length + 15) / 16) := by
  unfold blockCount
  split <;> omega

theorem blockCount_congr {m m' : List Byte} (h : m.length = m'.length) : blockCount m = blockCount m' := by
  rw [blockCount_eq_max, blockCount_eq_max, h]

theorem length_slice (m : List Byte) (a b : Nat) : (slice m a b).length = min (b - a) (m.length - a) := by
  simp [slice]

/-- A byte of `m[a .. b)` (00_scope.md R7). -/
theorem getD_slice (m : List Byte) {a b i : Nat} (h : i < b - a) : (slice m a b).getD i 0 = m.getD (a + i) 0 := by
  simp [slice, List.getD_eq_getElem?_getD, h]

/-- The end of a message is a piece of at most 16 bytes: what stands after it is nothing. -/
theorem slice_to_end (m : List Byte) {a b : Nat} (h : m.length ≤ b) : slice m a b = m.drop a :=
  List.take_of_length_le (by rw [List.length_drop]; omega)

/-- The last piece of a message as the last block: as it is with `K1` if it fills a block, else padded with `K2`. -/
def closedPiece (k1 k2 : Block) (piece : List Byte) : Block :=
  if piece.length = 16 then xor16 (blockOf piece) k1
  else xor16 (blockOf (piece ++ padByte :: List.replicate (15 - piece.length) 0)) k2

/-- The last block of a message is its last piece, closed. -/
theorem lastBlockOf_eq_closedPiece (k1 k2 : Block) (m : List Byte) :
    lastBlockOf k1 k2 m = closedPiece k1 k2 (slice m (16 * (blockCount m - 1)) (16 * (blockCount m - 1 + 1))) := by
  have count := blockCount_eq_max m
  rw [slice_to_end m (by omega)]
  by_cases full : 0 < m.length ∧ m.length % 16 = 0
  · have start : 16 * (blockCount m - 1) = m.length - 16 := by omega
    rw [lastBlockOf_full k1 k2 m full.1 full.2, slice_to_end m (Nat.le_refl _), start, closedPiece,
      if_pos (by rw [List.length_drop]; omega)]
  · have start : 16 * (blockCount m - 1) = m.length - m.length % 16 := by omega
    have rest : (m.drop (m.length - m.length % 16)).length = m.length % 16 := by rw [List.length_drop]; omega
    rw [lastBlockOf_partial k1 k2 m (by omega), slice_to_end m (Nat.le_refl _), start, closedPiece,
      if_neg (by omega), rest]

/-! ## `MSGB` and `FINAL`, register by register (R105, R106) -/

theorem appendBufByte_eq_set (r : Regs) (b : Byte) (h : r.cnt.toNat < 16) :
    appendBufByte r b = { r with buf := r.buf.set r.cnt.toNat b h, cnt := r.cnt + 1 } := by
  have stored : r.buf.setIfInBounds r.cnt.toNat b = r.buf.set r.cnt.toNat b h :=
    block_ext fun i hi => by rw [Vector.getElem_set, Vector.getElem_setIfInBounds]
  rw [appendBufByte, stored]

/-- `CNT` below 16 is not 16. -/
theorem cnt_ne_of_lt {r : Regs} (h : r.cnt.toNat < 16) : r.cnt ≠ 16 := fun full => by
  rw [full] at h
  exact absurd h (by decide)

/-- The two cases of R106 are those of `FINAL`'s test of `CNT`. -/
theorem lastBlockOfBuf_eq {r : Regs} {last : Block}
    (h : (r.cnt = 16 ∧ last = xor16 r.buf r.k1) ∨ (r.cnt.toNat < 16 ∧ last = xor16 (pad r.buf r.cnt.toNat) r.k2)) :
    lastBlockOfBuf r = last := by
  rcases h with ⟨full, rfl⟩ | ⟨room, rfl⟩
  · exact if_pos full
  · exact if_neg (cnt_ne_of_lt room)

/-! ## A message in progress (R107, R108) -/

/-- The plaintexts with which the first `n` blocks of a message are chained (R108). -/
def firstPlaintexts (E : Oracle) (key m : List Byte) (n : Nat) : List Block :=
  (List.range n).map fun i => xor16 (chain E key m i) (messageBlock m i)

/-- The plaintexts of the blocks that are chained while the message is still open: all blocks but the last. -/
def chainedPlaintexts (E : Oracle) (key m : List Byte) : List Block := firstPlaintexts E key m (blockCount m - 1)

theorem messagePlaintexts_eq (E : Oracle) (key : List Byte) (k1 k2 : Block) (m : List Byte) :
    messagePlaintexts E key k1 k2 m = chainedPlaintexts E key m ++ [lastPlaintext E key k1 k2 m] := rfl

theorem length_messagePlaintexts (E : Oracle) (key : List Byte) (k1 k2 : Block) (m : List Byte) :
    (messagePlaintexts E key k1 k2 m).length = blockCount m := by
  have blocks := blockCount_eq_max m
  rw [messagePlaintexts, List.length_append, List.length_map, List.length_range, List.length_singleton]
  omega

theorem firstPlaintexts_succ (E : Oracle) (key m : List Byte) (n : Nat) :
    firstPlaintexts E key m (n + 1) = firstPlaintexts E key m n ++ [xor16 (chain E key m n) (messageBlock m n)] := by
  rw [firstPlaintexts, List.range_succ, List.map_append, List.map_singleton, firstPlaintexts]

/-- The blocks that a shorter message fills are chained as they were. -/
theorem firstPlaintexts_append (E : Oracle) (key m t : List Byte) {n : Nat} (h : 16 * n ≤ m.length) :
    firstPlaintexts E key (m ++ t) n = firstPlaintexts E key m n := by
  refine List.map_congr_left fun i hi => ?_
  have := List.mem_range.1 hi
  rw [chain_append E key m t i (by omega), messageBlock_append m t i (by omega)]

section Chained
variable {E : Oracle} {m : List Byte} {r : Regs}

/-- The buffer is full exactly when the open message fills its last block. -/
theorem Streams.cnt_eq_iff (h : Streams E m r) : r.cnt = 16 ↔ m.length = 16 * blockCount m := by
  have blocks := blockCount_eq_max m
  rcases Nat.eq_zero_or_pos m.length with empty | nonempty
  · rw [(h.empty empty).cnt]
    exact iff_of_false (by decide) (by omega)
  · have count := h.count nonempty
    rw [← BitVec.toNat_inj, count]
    simp only [BitVec.reduceToNat]
    omega

/-- A byte that the buffer has room for starts no new block, so no block is chained. -/
theorem chainedPlaintexts_append_room (key : List Byte) (b : Byte) (h : Streams E m r) (room : r.cnt ≠ 16) :
    chainedPlaintexts E key (m ++ [b]) = chainedPlaintexts E key m := by
  have notFull := mt h.cnt_eq_iff.2 room
  have blocks := blockCount_eq_max m
  have same : blockCount (m ++ [b]) = blockCount m := by
    rw [blockCount_eq_max, List.length_append, List.length_singleton]
    omega
  rw [chainedPlaintexts, same, firstPlaintexts_append E key m [b] (by omega), chainedPlaintexts]

/-- A byte that comes to a full buffer starts a new block, and the buffered one is chained. -/
theorem chainedPlaintexts_append_full (b : Byte) (h : Streams E m r) (full : r.cnt = 16) :
    chainedPlaintexts E (keySlice r) (m ++ [b]) = chainedPlaintexts E (keySlice r) m ++ [retirePlaintext r] := by
  have filled := h.cnt_eq_iff.1 full
  have blocks := blockCount_eq_max m
  have more : blockCount (m ++ [b]) - 1 = blockCount m - 1 + 1 := by
    rw [blockCount_eq_max, List.length_append, List.length_singleton]
    omega
  have before : (m.length + 15) / 16 - 1 = blockCount m - 1 := by omega
  have buffered : retirePlaintext r =
      xor16 (chain E (keySlice r) m (blockCount m - 1)) (messageBlock m (blockCount m - 1)) := by
    rw [retirePlaintext, h.chained (by omega), h.buffer (by omega), messageBlock_eq_drop, before]
  rw [chainedPlaintexts, more, firstPlaintexts_append E _ m [b] (by omega), firstPlaintexts_succ, ← buffered,
    chainedPlaintexts]

end Chained

/-- The registers `r` and the oracle calls made since the last message boundary, where the engine, keyed as in `r₀`, has
been given the bytes `m`: it holds them as its open message, with the key material of `r₀`, and has asked the oracle for
the blocks before the last one. -/
structure Absorbed (E : Oracle) (r₀ : Regs) (m : List Byte) (r : Regs) (calls : List OracleCall) : Prop where
  streams : Streams E m r
  material : r.key = r₀.key ∧ r.klen = r₀.klen ∧ r.k1 = r₀.k1 ∧ r.k2 = r₀.k2 ∧ r.keyed = true
  calls : calls = (chainedPlaintexts E (keySlice r₀) m).map (encCall E r₀)

/-- What the oracle is asked depends on the key alone. -/
theorem encCall_congr (E : Oracle) {r r' : Regs} (hk : r.key = r'.key) (hl : r.klen = r'.klen) (p : Block) :
    encCall E r p = encCall E r' p := by
  rw [encCall, encCall, request, request, hk, hl]

section Absorbed
variable {E : Oracle} {r₀ r : Regs} {m : List Byte} {calls : List OracleCall}

theorem absorbed_nil (E : Oracle) (boundary : AtBoundary r) (keyed : r.keyed = true) : Absorbed E r [] r [] where
  streams := streams_nil boundary
  material := ⟨rfl, rfl, rfl, rfl, keyed⟩
  calls := rfl

theorem Absorbed.keyed (h : Absorbed E r₀ m r calls) : r.keyed = true := by
  obtain ⟨_, _, _, _, keyed⟩ := h.material
  exact keyed

theorem Absorbed.keySlice_eq (h : Absorbed E r₀ m r calls) : keySlice r = keySlice r₀ := by
  obtain ⟨key, klen, _⟩ := h.material
  exact keySlice_congr key klen

theorem Absorbed.encCall_eq (h : Absorbed E r₀ m r calls) (p : Block) : encCall E r p = encCall E r₀ p := by
  obtain ⟨key, klen, _⟩ := h.material
  exact encCall_congr E key klen p

/-- A command other than `CLR` and `FINAL` on a keyed engine adds its message byte, if it brings one. -/
theorem openAfter_keyed (m : List Byte) {i : Instr} (hc : i ≠ .clr) (hf : i ≠ .final) :
    openAfter true m i = m ++ (messageByte? i).toList := by
  cases i with
  | clr => exact absurd rfl hc
  | final => exact absurd rfl hf
  | msgb b => rfl
  | nop | keyb | init | rdtag | stat => exact (List.append_nil m).symm

/-- The oracle is asked for exactly the block that the command chains, if it chains one. -/
theorem Writes.chainedPlaintexts {i : Instr} {r' : Regs} {new : List OracleCall} (h : Writes E r i r' new)
    (hm : Streams E m r) (keyed : r.keyed = true) (hc : i ≠ .clr) (hf : i ≠ .final) :
    (chainedPlaintexts E (keySlice r) (openAfter true m i)).map (encCall E r) =
      (chainedPlaintexts E (keySlice r) m).map (encCall E r) ++ new := by
  cases h with
  | kept kept => rw [openAfter_of_keepsRegs (keyed ▸ kept), List.append_nil]
  | clr => exact absurd rfl hc
  | final => exact absurd rfl hf
  | keybRoom _ unkeyed | keybFull _ unkeyed | initBadLength unkeyed | initOk unkeyed =>
    exact absurd keyed (by simp [unkeyed])
  | msgbRoom b _ room => rw [openAfter, if_pos rfl, chainedPlaintexts_append_room _ b hm room, List.append_nil]
  | msgbFull b _ full => rw [openAfter, if_pos rfl, chainedPlaintexts_append_full b hm full, List.map_append]; rfl

/-- A command other than `CLR` and `FINAL`. -/
theorem Absorbed.command (h : Absorbed E r₀ m r calls) {i : Instr} (hc : i ≠ .clr) (hf : i ≠ .final) :
    Absorbed E r₀ (openAfter true m i) (effect E i r).regs (calls ++ (effect E i r).calls) := by
  have writes := effect_writes E i r
  obtain ⟨key, klen, k1, k2, keyed⟩ := h.material
  obtain ⟨key', klen', k1', k2', keyed'⟩ := writes.keyMaterial_frame keyed hc
  have held := writes.holdsMessage (holdsMessage_of_keyed h.streams keyed)
  rw [keyed] at held
  have asked := writes.chainedPlaintexts h.streams keyed hc hf
  rw [h.keySlice_eq, funext h.encCall_eq, ← h.calls] at asked
  exact ⟨held.streams, ⟨key'.trans key, klen'.trans klen, k1'.trans k1, k2'.trans k2, keyed'⟩, asked.symm⟩

/-- Any word but that of `CLR` and of `FINAL`, the illegal ones included. -/
theorem Absorbed.word (h : Absorbed E r₀ m r calls) {w : Word16} (hc : w ≠ encode .clr) (hf : w ≠ encode .final) :
    Absorbed E r₀ (m ++ messageOf [w]) (wordEffect E w r).regs (calls ++ (wordEffect E w r).calls) := by
  cases hd : decode w with
  | legal i =>
    obtain rfl := eq_encode_of_decode hd
    have notClr : i ≠ .clr := fun e => hc (e ▸ rfl)
    have notFinal : i ≠ .final := fun e => hf (e ▸ rfl)
    have brought : messageOf [encode i] = (messageByte? i).toList := by
      rw [messageOf, List.filterMap_cons, hd]
      cases h : messageByte? i <;> simp [Decoded.instr?, h]
    rw [wordEffect_of_legal E r hd, brought, ← openAfter_keyed m notClr notFinal]
    exact h.command notClr notFinal
  | illegal c =>
    have brought : messageOf [w] = [] := by simp [messageOf, hd, Decoded.instr?]
    rw [wordEffect_of_illegal E r hd, brought, raise_regs, raise_calls, List.append_nil, List.append_nil]
    exact h

theorem messageOf_cons (w : Word16) (ws : List Word16) : messageOf (w :: ws) = messageOf [w] ++ messageOf ws :=
  List.filterMap_append (l := [w])

/-- Any words but those of `CLR` and of `FINAL`. -/
theorem Absorbed.words (h : Absorbed E r₀ m r calls) {ws : List Word16}
    (hws : ∀ w ∈ ws, w ≠ encode .clr ∧ w ≠ encode .final) :
    Absorbed E r₀ (m ++ messageOf ws) (regsAfter E ws r) (calls ++ callsOf E ws r) := by
  induction ws generalizing m r calls with
  | nil => simpa [messageOf, regsAfter, callsOf] using h
  | cons w ws ih =>
    obtain ⟨⟨hc, hf⟩, rest⟩ := List.forall_mem_cons.1 hws
    rw [messageOf_cons, ← List.append_assoc, regsAfter, callsOf, ← List.append_assoc]
    exact ih (h.word hc hf) rest

/-- `FINAL` gives the tag that the source's algorithm gives the bytes (R100), with one more call. -/
theorem Absorbed.final (h : Absorbed E r₀ m r calls) :
    effect E .final r =
      { regs := toBoundary { r with tag := cmac E (keySlice r₀) r₀.k1 r₀.k2 m, tagv := true }
        calls := [encCall E r₀ (lastPlaintext E (keySlice r₀) r₀.k1 r₀.k2 m)]
        rsp := .tag (cmac E (keySlice r₀) r₀.k1 r₀.k2 m) } := by
  obtain ⟨_, _, k1, k2, keyed⟩ := h.material
  have plaintext := finalPlaintext_eq h.streams
  rw [h.keySlice_eq, k1, k2] at plaintext
  rw [effect, finalEffect_keyed E r keyed, plaintext, h.encCall_eq, enc, h.keySlice_eq, cmac]

end Absorbed

/-! ## A whole message: any words but `CLR` and `FINAL`, then `FINAL` -/

section Message
variable (E : Oracle) {r : Regs} (keyed : r.keyed = true) (boundary : AtBoundary r) {ws : List Word16}
  (hws : ∀ w ∈ ws, w ≠ encode .clr ∧ w ≠ encode .final)
include keyed boundary hws

/-- What the words leave in the registers and ask of the oracle before the `FINAL`. -/
theorem absorbed_words : Absorbed E r (messageOf ws) (regsAfter E ws r) (callsOf E ws r) :=
  (absorbed_nil E boundary keyed).words hws

theorem regsAfter_message :
    regsAfter E (ws ++ [encode .final]) r =
      toBoundary { regsAfter E ws r with tag := cmac E (keySlice r) r.k1 r.k2 (messageOf ws), tagv := true } := by
  rw [regsAfter_append, regsAfter, regsAfter, wordEffect_encode, (absorbed_words E keyed boundary hws).final]

theorem responsesTo_message :
    responsesTo E (ws ++ [encode .final]) r =
      responsesTo E ws r ++ [.tag (cmac E (keySlice r) r.k1 r.k2 (messageOf ws))] := by
  rw [responsesTo_append, responsesTo, responsesTo, wordEffect_encode, (absorbed_words E keyed boundary hws).final]

theorem callsOf_message :
    callsOf E (ws ++ [encode .final]) r =
      (messagePlaintexts E (keySlice r) r.k1 r.k2 (messageOf ws)).map (encCall E r) := by
  have absorbed := absorbed_words E keyed boundary hws
  rw [callsOf_append, callsOf, callsOf, wordEffect_encode, absorbed.final, absorbed.calls, messagePlaintexts_eq,
    List.map_append]
  rfl

/-- The engine is ready for the next message, with the key material it had. -/
theorem boundary_after_message :
    AtBoundary (regsAfter E (ws ++ [encode .final]) r) ∧
      (regsAfter E (ws ++ [encode .final]) r).keyed = true ∧
      (regsAfter E (ws ++ [encode .final]) r).key = r.key ∧
      (regsAfter E (ws ++ [encode .final]) r).klen = r.klen ∧
      (regsAfter E (ws ++ [encode .final]) r).k1 = r.k1 ∧
      (regsAfter E (ws ++ [encode .final]) r).k2 = r.k2 := by
  obtain ⟨key, klen, k1, k2, keyed'⟩ := (absorbed_words E keyed boundary hws).material
  rw [regsAfter_message E keyed boundary hws]
  exact ⟨atBoundary_toBoundary _, keyed', key, klen, k1, k2⟩

end Message

/-! ## `CALCULATE` (R110) -/

theorem words_calculate (m : List Byte) :
    (calculateCommands m).map encode = (msgCommands m).map encode ++ [encode .final] := by
  simp [calculateCommands]

theorem length_words_calculate (m : List Byte) : ((calculateCommands m).map encode).length = m.length + 1 := by
  simp [calculateCommands, msgCommands]

theorem messageOf_msgCommands (m : List Byte) : messageOf ((msgCommands m).map encode) = m := by
  simp [messageOf, msgCommands, Function.comp_def, decode_encode, Decoded.instr?, messageByte?]

theorem encode_injective : Function.Injective encode := fun i j h =>
  Decoded.legal.inj ((decode_encode i).symm.trans ((congrArg decode h).trans (decode_encode j)))

/-- `MSG m` is made of neither `CLR` nor `FINAL`. -/
theorem msgCommands_words (m : List Byte) :
    ∀ w ∈ (msgCommands m).map encode, w ≠ encode .clr ∧ w ≠ encode .final := by
  simp [msgCommands, encode_injective.eq_iff]

/-- Only `FINAL` and `RDTAG` answer with a tag. -/
theorem tag?_effect (E : Oracle) (r : Regs) {i : Instr} (hf : i ≠ .final) (hr : i ≠ .rdtag) :
    (effect E i r).rsp.tag? = none := by
  cases i with
  | nop | clr | stat => rfl
  | final => exact absurd rfl hf
  | rdtag => exact absurd rfl hr
  | keyb | init | msgb =>
    simp only [effect, keybEffect, initEffect, msgbEffect]
    split
    · rfl
    · split <;> rfl

theorem tags_responsesTo_eq_nil (E : Oracle) (r : Regs) {is : List Instr} (h : ∀ i ∈ is, i ≠ .final ∧ i ≠ .rdtag) :
    (responsesTo E (is.map encode) r).filterMap Response.tag? = [] := by
  induction is generalizing r with
  | nil => rfl
  | cons i is ih =>
    obtain ⟨⟨hf, hr⟩, rest⟩ := List.forall_mem_cons.1 h
    rw [List.map_cons, responsesTo, wordEffect_encode, List.filterMap_cons_none (tag?_effect E r hf hr), ih _ rest]

/-- The tags a keyed engine at a message boundary answers a list of messages with are their `CMAC`s, in order. -/
theorem tags_of_messages (E : Oracle) {r : Regs} (keyed : r.keyed = true) (boundary : AtBoundary r)
    (ms : List (List Byte)) :
    (responsesTo E ((ms.flatMap calculateCommands).map encode) r).filterMap Response.tag? =
      ms.map (cmac E (keySlice r) r.k1 r.k2) := by
  induction ms generalizing r with
  | nil => rfl
  | cons m ms ih =>
    have words := msgCommands_words m
    obtain ⟨boundary', keyed', key, klen, k1, k2⟩ := boundary_after_message E keyed boundary words
    have noTag := tags_responsesTo_eq_nil E r (is := msgCommands m) (by simp [msgCommands])
    rw [List.flatMap_cons, List.map_append, words_calculate, responsesTo_append, List.filterMap_append,
      ih keyed' boundary', keySlice_congr key klen, k1, k2, responsesTo_message E keyed boundary words,
      List.filterMap_append, noTag, messageOf_msgCommands]
    rfl

/-- A `CONSTRUCT k` with a key of legal length leaves a keyed engine at a message boundary, under the key `k`. -/
theorem regsAfter_construct (E : Oracle) {k : List Byte} (legal : k.length ∈ Config.keyLengths) (r : Regs) :
    (regsAfter E ((constructCommands k).map encode) r).keyed = true ∧
      AtBoundary (regsAfter E ((constructCommands k).map encode) r) ∧
      keySlice (regsAfter E ((constructCommands k).map encode) r) = k ∧
      ((regsAfter E ((constructCommands k).map encode) r).k1, (regsAfter E ((constructCommands k).map encode) r).k2) =
        derive E k := by
  obtain ⟨r', holds, regs, _⟩ := exists_holdsKey_construct E k r
  have fits : k.length ≤ 32 := by
    simp only [Config.keyLengths, List.mem_cons, List.not_mem_nil, or_false] at legal
    omega
  have slice := holds.keySlice_eq fits
  rw [regs, holds.init_of_legal E legal]
  exact ⟨constructed_keyed .., atBoundary_constructed ..,
    (keySlice_congr (constructed_key ..) (constructed_klen ..)).trans slice,
    (constructed_subkeys ..).trans (by rw [slice])⟩

/-- With the subkeys of its key an engine computes `CMAC(key, m)` (R100). -/
theorem cmac_eq_cmacOf (E : Oracle) {key : List Byte} {k1 k2 : Block} (h : (k1, k2) = derive E key) (m : List Byte) :
    cmac E key k1 k2 m = cmacOf E key m := by
  rw [cmacOf, ← h]

/-- A keyed engine that meets the invariant answers a message at a boundary with its `CMAC(key, m)`, also kept in
`TAG`. -/
theorem run_calculate {s : State} {m : List Byte} (inv : s.Inv) (q : Quiet s) (keyed : s.regs.keyed = true)
    (boundary : AtBoundary s.regs) (hc : s.cmds = (calculateCommands m).map encode) :
    ∃ t, core.run (m.length + 1) s = .next t ∧ t.regs.tag = cmacOf Config.E (keySlice s.regs) m ∧
      t.rsps.getLast? = some (.tag (cmacOf Config.E (keySlice s.regs) m)) := by
  have words := msgCommands_words m
  have run := run_words _ [] q (hc.trans (List.append_nil _).symm)
  rw [length_words_calculate, words_calculate, regsAfter_message _ keyed boundary words,
    responsesTo_message _ keyed boundary words, messageOf_msgCommands,
    cmac_eq_cmacOf _ (inv.regs.keyedSubkeys keyed)] at run
  exact ⟨_, run, rfl, by rw [← List.append_assoc, List.getLast?_concat]⟩

/-! ## Messages that differ in one block (R109) -/

theorem xor16_right_injective (a : Block) : Function.Injective (xor16 a) := fun b c h => by
  apply blockBus_injective
  rw [← BitVec.xor_right_inj (blockBus a), ← blockBus_xor16, ← blockBus_xor16, h]

theorem xor16_left_injective (c : Block) : Function.Injective (xor16 · c) := fun a b h => by
  apply blockBus_injective
  rw [← BitVec.xor_left_inj (blockBus c), ← blockBus_xor16, ← blockBus_xor16]
  exact congrArg blockBus h

/-- A block tells byte strings of one length, of at most 16 bytes, apart. -/
theorem blockOf_injective {l l' : List Byte} (len : l.length = l'.length) (fits : l.length ≤ 16)
    (h : blockOf l = blockOf l') : l = l' := by
  refine List.ext_getElem len fun i hi hi' => ?_
  have byte := congrArg (fun b : Block => b[i]'(by omega)) h
  simpa [hi, hi'] using byte

/-- The last block tells pieces of one length, of at most 16 bytes, apart. -/
theorem closedPiece_injective (k1 k2 : Block) {l l' : List Byte} (len : l.length = l'.length) (fits : l.length ≤ 16)
    (h : closedPiece k1 k2 l = closedPiece k1 k2 l') : l = l' := by
  rw [closedPiece, closedPiece, ← len] at h
  split at h
  · exact blockOf_injective len fits (xor16_left_injective k1 h)
  · have padded := blockOf_injective (by simp [len]) (by simp; omega) (xor16_left_injective k2 h)
    exact (List.append_inj padded len).1

section OneBlock
variable {E : Oracle} {key m m' : List Byte}

/-- The chaining value depends on the blocks chained so far alone. -/
theorem chain_congr {n : Nat} (same : ∀ i < n, messageBlock m i = messageBlock m' i) :
    chain E key m n = chain E key m' n := by
  induction n with
  | zero => rfl
  | succ n ih => rw [chain, chain, ih fun i hi => same i (by omega), same n (by omega)]

/-- Under an injective oracle chaining values that differ go on to differ while equal blocks are chained. -/
theorem chain_ne_of_le (inj : Function.Injective (E key)) {a n : Nat} (h : a ≤ n)
    (differ : chain E key m a ≠ chain E key m' a) (same : ∀ i, a ≤ i → i < n → messageBlock m i = messageBlock m' i) :
    chain E key m n ≠ chain E key m' n := by
  induction n, h using Nat.le_induction with
  | base => exact differ
  | succ n h ih =>
    intro equal
    rw [chain, chain, same n h (Nat.lt_succ_self n)] at equal
    exact ih (fun i hi hn => same i hi (by omega)) (xor16_left_injective _ (inj equal))

end OneBlock

/-! ## The statements -/

/-- Settles O51: each byte of the last piece, with or without the padding. -/
theorem lastBlockAndSubkey : Obligations.LastBlockAndSubkey := by
  refine fun k1 k2 m => ⟨fun nonempty full i hi => ?_, fun partly i hi => ?_⟩
  · rw [lastBlockOf_full k1 k2 m nonempty full, getElem_xor16, getElem_blockOf, getD_slice m (by omega)]
  · have len : (slice m (m.length - m.length % 16) m.length).length = m.length % 16 := by
      rw [length_slice]
      omega
    have padded := pad_blockOf (slice m (m.length - m.length % 16) m.length) (by omega)
    rw [len] at padded
    rw [lastBlockOf_partial k1 k2 m partly, ← padded, getElem_xor16, getElem_pad, getElem_blockOf]
    congr 1
    split
    · rw [getD_slice m (by omega)]
    · rfl

/-- Settles O52: the engine absorbs the words, and `FINAL` closes what it has absorbed. -/
theorem serialTagIsCmac : Obligations.SerialTagIsCmac := by
  intro s ws rest q keyed boundary hws hc
  have run := run_words (ws ++ [encode .final]) rest q (by simp [hc])
  rw [List.length_append, List.length_singleton, responsesTo_message _ keyed boundary hws, ← List.append_assoc] at run
  obtain ⟨boundary', keyed', key, klen, k1, k2⟩ := boundary_after_message Config.E keyed boundary hws
  exact ⟨_, responsesTo Config.E ws s.regs, run, ⟨q.noCommandInProgress, q.noResponseWaiting, q.onlyGo⟩, rfl, boundary',
    keyed', key, klen, k1, k2, length_responsesTo .., rfl⟩

/-- Settles O53: the calls of the blocks chained on the way, and the one of `FINAL`. -/
theorem messageOracleRequests : Obligations.MessageOracleRequests := by
  intro s m q keyed boundary hc
  have run := run_words _ [] q (hc.trans (List.append_nil _).symm)
  rw [length_words_calculate, words_calculate, callsOf_message _ keyed boundary (msgCommands_words m),
    messageOf_msgCommands] at run
  refine ⟨_, run, rfl, ?_⟩
  rw [List.length_append, List.length_map, length_messagePlaintexts, blockCount_eq_max]

/-- Settles O54: both tags are `CMAC(key, m)`, since the invariant ties the subkeys to the key. -/
theorem tagIgnoresHistory : Obligations.TagIgnoresHistory := by
  intro s s' m inv inv' q q' keyed keyed' boundary boundary' key hc hc'
  obtain ⟨t, run, tag, rsp⟩ := run_calculate inv q keyed boundary hc
  obtain ⟨t', run', tag', rsp'⟩ := run_calculate inv' q' keyed' boundary' hc'
  exact ⟨t, t', run, run', by rw [tag, tag', key], by rw [rsp, tag], by rw [rsp', tag']⟩

/-- Settles O55: the plaintexts of the differing block differ, and an injective oracle never makes them equal again. -/
theorem oneBlockChangesTag : Obligations.OneBlockChangesTag := by
  intro E key m m' j perm legal len differ same equal
  have inj := (perm key legal).injective
  have blocks := blockCount_eq_max m
  have sameBlock : ∀ i, i ≠ j → messageBlock m i = messageBlock m' i := fun i hi => congrArg blockOf (same i hi)
  have pieceLen (i : Nat) :
      (slice m (16 * i) (16 * (i + 1))).length = (slice m' (16 * i) (16 * (i + 1))).length := by
    rw [length_slice, length_slice, len]
  have pieceFits (i : Nat) : (slice m (16 * i) (16 * (i + 1))).length ≤ 16 := by
    rw [length_slice]
    omega
  have last := inj equal
  rw [lastPlaintext, lastPlaintext, ← blockCount_congr len, lastBlockOf_eq_closedPiece, lastBlockOf_eq_closedPiece,
    ← blockCount_congr len] at last
  rcases Nat.lt_trichotomy j (blockCount m - 1) with inner | atEnd | beyond
  · rw [same _ (by omega)] at last
    refine chain_ne_of_le inj (show j + 1 ≤ blockCount m - 1 from inner) (fun h => ?_)
      (fun i hi _ => sameBlock i (by omega)) (xor16_left_injective _ last)
    rw [chain, chain, chain_congr fun i hi => sameBlock i (by omega)] at h
    exact differ (blockOf_injective (pieceLen j) (pieceFits j) (xor16_right_injective _ (inj h)))
  · rw [← atEnd, chain_congr fun i hi => sameBlock i (by omega)] at last
    exact differ (closedPiece_injective _ _ (pieceLen j) (pieceFits j) (xor16_right_injective _ last))
  · have empty : (slice m (16 * j) (16 * (j + 1))).length = 0 := by
      rw [length_slice]
      omega
    exact differ ((List.eq_nil_of_length_eq_zero empty).trans
      (List.eq_nil_of_length_eq_zero ((pieceLen j).symm.trans empty)).symm)

/-- Settles O57: `CONSTRUCT k` gives no tag and derives the subkeys; then each message is answered with its own. -/
theorem calculateReturnsCmac : Obligations.CalculateReturnsCmac := by
  intro s k ms q legal hc
  have run := run_words s.cmds [] q (List.append_nil _).symm
  refine ⟨_, run, rfl, ?_⟩
  obtain ⟨keyed, boundary, key, subkeys⟩ := regsAfter_construct Config.E legal s.regs
  have noTag := tags_responsesTo_eq_nil Config.E s.regs (is := constructCommands k)
    (by simp [constructCommands, keyCommands, or_imp, forall_and])
  rw [hc, List.filterMap_append, List.map_append, responsesTo_append, List.filterMap_append, noTag,
    tags_of_messages _ keyed boundary, key, List.nil_append]
  exact congrArg _ (List.map_congr_left fun m _ => cmac_eq_cmacOf _ subkeys m)

/-- Settles O32, by the three cases of `MSGB`. -/
theorem msgbAppendsMessageByte : Obligations.MsgbAppendsMessageByte := by
  intro b s
  refine ⟨wordOf_formatB 4 b, fun unkeyed => exec_of_respond (msgbEffect_unkeyed _ _ b unkeyed), fun keyed full => ?_,
    fun keyed room => ?_⟩
  · rw [exec_eq_commit, effect, msgbEffect_full _ _ b keyed full]
    rfl
  · rw [← appendBufByte_eq_set s.regs b room]
    exact exec_of_respond (msgbEffect_room _ _ b keyed (cnt_ne_of_lt room))

/-- Settles O33, by the two cases of `FINAL`. -/
theorem finalGivesTag : Obligations.FinalGivesTag := by
  refine ⟨rfl, fun s => ⟨fun unkeyed => exec_of_respond (finalEffect_unkeyed _ _ unkeyed), fun keyed last hlast => ?_⟩⟩
  rw [exec_eq_commit, effect, finalEffect_keyed _ _ keyed, finalPlaintext, lastBlockOfBuf_eq hlast]
  rfl

/-- Settles O50: every form of the count, and the plaintexts counted. -/
theorem blockCount_spec : Obligations.BlockCount := by
  refine fun m => ⟨fun empty => ?_, fun nonempty => ?_, blockCount_eq_max m, ?_, fun E key k1 k2 =>
    length_messagePlaintexts E key k1 k2 m⟩
  · rw [empty]
    rfl
  · exact if_neg fun h => nonempty (List.eq_nil_of_length_eq_zero h)
  · rw [blockCount_eq_max]
    exact Nat.le_max_left ..

end Sys2Proof.Machine

/-! Theorems about the block utilities (42_block_utilities.md): the shared facts first, then each statement. -/

namespace Sys2Proof.Machine

/-! ## What of a command's effect shows no data (R125 (c)) -/

/-- What shows of an effect when no data byte is looked at: the registers that sequencing may depend on, the response
code, and of each oracle request whether it was answered. -/
structure Outline where
  shape : Shape
  code : BitVec 4
  answered : List Bool

/-- The outline of an effect. -/
def Effect.outline (e : Effect) : Outline := ⟨e.regs.shape, e.rsp.code, e.calls.map (·.ct.isSome)⟩

theorem outline_eq_iff {e e' : Effect} : e.outline = e'.outline ↔
    e.regs.shape = e'.regs.shape ∧ e.rsp.code = e'.rsp.code ∧
      e.calls.map (·.ct.isSome) = e'.calls.map (·.ct.isSome) := by
  rw [Effect.outline, Effect.outline, Outline.mk.injEq]

/-- The outline of a command word's effect, from its opcode (none if the word is illegal) and the shape of the registers
alone: no data byte is an argument. The opcodes stand in the order of 30_encoding.md R63 (`NOP`, `CLR`, `KEYB`, `INIT`,
`MSGB`, `FINAL`, `RDTAG`), the last line for `STAT`. -/
def outlineOf (σ : Shape) : Option (BitVec 4) → Outline
  | none => ⟨σ, ErrorCode.illegalCmd.code, []⟩
  | some 0x0#4 => ⟨σ, 0x0, []⟩
  | some 0x1#4 => ⟨Regs.reset.shape, 0x0, []⟩
  | some 0x2#4 =>
    if σ.keyed then ⟨σ, ErrorCode.badState.code, []⟩
    else if σ.klen.toNat < 32 then ⟨{ σ with klen := σ.klen + 1 }, 0x0, []⟩
    else ⟨{ σ with klen := 33 }, 0x0, []⟩
  | some 0x3#4 =>
    if σ.keyed then ⟨σ, ErrorCode.badState.code, []⟩
    else if σ.klen.toNat ∈ Config.keyLengths then ⟨{ σ with keyed := true, cnt := 0 }, 0x0, [true]⟩
    else ⟨{ σ with klen := 0 }, ErrorCode.invalidKeySize.code, []⟩
  | some 0x4#4 =>
    if σ.keyed then if σ.cnt = 16 then ⟨{ σ with cnt := 1 }, 0x0, [true]⟩ else ⟨{ σ with cnt := σ.cnt + 1 }, 0x0, []⟩
    else ⟨σ, ErrorCode.badState.code, []⟩
  | some 0x5#4 =>
    if σ.keyed then ⟨{ σ with cnt := 0, tagv := true }, 0x1, [true]⟩ else ⟨σ, ErrorCode.badState.code, []⟩
  | some 0x6#4 => if σ.tagv then ⟨σ, 0x1, []⟩ else ⟨σ, ErrorCode.noTag.code, []⟩
  | some _ => ⟨σ, 0x2, []⟩

theorem outline_raise (r : Regs) (e : ErrorCode) : (raise r e).outline = ⟨r.shape, e.code, []⟩ := rfl

/-- Each case of a command has the outline that `outlineOf` gives under the same condition on the shape. -/
theorem outline_effect (E : Oracle) (i : Instr) (r : Regs) :
    (effect E i r).outline = outlineOf r.shape (some i.opcode) := by
  cases i with
  | nop => rfl
  | clr => rfl
  | keyb b =>
    rcases Bool.eq_false_or_eq_true r.keyed with keyed | unkeyed
    · rw [effect, keybEffect_keyed _ _ keyed]
      exact (if_pos keyed).symm
    refine Eq.trans ?_ (if_neg (Bool.eq_false_iff.1 unkeyed)).symm
    rcases Nat.lt_or_ge r.klen.toNat 32 with room | full
    · rw [effect, keybEffect_room _ _ unkeyed room]
      exact (if_pos room).symm
    · rw [effect, keybEffect_full _ _ unkeyed full]
      exact (if_neg (Nat.not_lt.2 full)).symm
  | init =>
    rcases Bool.eq_false_or_eq_true r.keyed with keyed | unkeyed
    · rw [effect, initEffect_keyed _ _ keyed]
      exact (if_pos keyed).symm
    refine Eq.trans ?_ (if_neg (Bool.eq_false_iff.1 unkeyed)).symm
    by_cases legal : r.klen.toNat ∈ Config.keyLengths
    · rw [effect, initEffect_ok _ _ unkeyed legal]
      exact (if_pos legal).symm
    · rw [effect, initEffect_badLength _ _ unkeyed legal]
      exact (if_neg legal).symm
  | msgb b =>
    rcases Bool.eq_false_or_eq_true r.keyed with keyed | unkeyed
    · refine Eq.trans ?_ (if_pos keyed).symm
      by_cases full : r.cnt = 16
      · rw [effect, msgbEffect_full _ _ _ keyed full]
        exact (if_pos full).symm
      · rw [effect, msgbEffect_room _ _ _ keyed full]
        exact (if_neg full).symm
    · rw [effect, msgbEffect_unkeyed _ _ _ unkeyed]
      exact (if_neg (Bool.eq_false_iff.1 unkeyed)).symm
  | final =>
    rcases Bool.eq_false_or_eq_true r.keyed with keyed | unkeyed
    · rw [effect, finalEffect_keyed _ _ keyed]
      exact (if_pos keyed).symm
    · rw [effect, finalEffect_unkeyed _ _ unkeyed]
      exact (if_neg (Bool.eq_false_iff.1 unkeyed)).symm
  | rdtag =>
    rcases Bool.eq_false_or_eq_true r.tagv with tag | noTag
    · rw [effect, rdtagEffect_tag _ tag]
      exact (if_pos tag).symm
    · rw [effect, rdtagEffect_noTag _ noTag]
      exact (if_neg (Bool.eq_false_iff.1 noTag)).symm
  | stat => rfl

theorem outline_wordEffect (E : Oracle) (w : Word16) (r : Regs) :
    (wordEffect E w r).outline = outlineOf r.shape ((decode w).instr?.map Instr.opcode) := by
  cases hd : decode w with
  | legal i => rw [wordEffect_of_legal _ _ hd, outline_effect]; rfl
  | illegal c => rw [wordEffect_of_illegal _ _ hd, outline_raise]; rfl

/-- Words of one kind, run on registers of one shape, show the same. -/
theorem outline_wordEffect_congr {w w' : Word16} (kind : SameKind w w') {r r' : Regs} (shape : r.shape = r'.shape)
    (E : Oracle) : (wordEffect E w r).outline = (wordEffect E w' r').outline := by
  rw [outline_wordEffect, outline_wordEffect, shape, show _ = _ from kind]

/-- Whether a word makes an oracle request shows in the outline. -/
theorem isSome_wordRequest (w : Word16) (r : Regs) :
    (wordRequest w r).isSome = (wordEffect Config.E w r).outline.answered.head?.isSome := by
  simp [wordRequest, Effect.outline]

/-! ## Steps of two states that differ only in data -/

theorem sameProgress_cases {p p' : Option InFlight} (h : SameProgress p p') :
    (p = none ∧ p' = none) ∨
      ∃ f f', p = some f ∧ p' = some f' ∧ SameKind f.word f'.word ∧ f.req.isSome = f'.req.isSome := by
  cases p with
  | none =>
    cases p' with
    | none => exact .inl ⟨rfl, rfl⟩
    | some f' => exact h.elim
  | some f =>
    cases p' with
    | none => exact h.elim
    | some f' => exact .inr ⟨f, f', rfl, rfl, h⟩

/-- What a reset abandons shows no more than whether a request was outstanding (70_reset_and_hazards.md R203). -/
theorem abandoned_answered (f : InFlight) :
    f.abandoned.map (·.ct.isSome) = if f.req.isSome then [false] else [] := by
  obtain ⟨w, req⟩ := f
  cases req <;> rfl

section SameButData
variable {s s' : State} (h : SameButData s s')
include h

theorem SameButData.commit {e e' : Effect} (he : e.outline = e'.outline) :
    SameButData (s.commit e) (s'.commit e') := by
  obtain ⟨shape, code, answered⟩ := outline_eq_iff.1 he
  exact { h with
    shape
    rspPort := congrArg some code
    calls := by rw [commit_calls, commit_calls, List.map_append, List.map_append, h.calls, answered] }

theorem SameButData.takeResponse : SameButData s.takeResponse s'.takeResponse :=
  { h with
    rspPort := rfl
    rsps := by
      rw [takeResponse_rsps, takeResponse_rsps, List.map_append, List.map_append, ← Option.toList_map,
        ← Option.toList_map, h.rsps, h.rspPort] }

theorem SameButData.afterReset : SameButData s.afterReset s'.afterReset :=
  { h with
    shape := rfl
    inFlight := trivial
    rspPort := rfl
    calls := by
      rw [afterReset_calls, afterReset_calls, List.map_append, List.map_append, h.calls]
      rcases sameProgress_cases h.inFlight with ⟨hf, hf'⟩ | ⟨f, f', hf, hf', _, req⟩
      · rw [hf, hf']
      · rw [hf, hf', Option.map_some, Option.map_some, Option.getD_some, Option.getD_some, abandoned_answered,
          abandoned_answered, req] }

/-- The words presented to both: none, or a first one of the same kind and the rest. -/
theorem SameButData.cmds_cases : (s.cmds = [] ∧ s'.cmds = []) ∨
    ∃ w w' ws ws', s.cmds = w :: ws ∧ s'.cmds = w' :: ws' ∧ SameKind w w' ∧ List.Forall₂ SameKind ws ws' := by
  have cmds := h.cmds
  generalize s.cmds = c, s'.cmds = c' at cmds
  cases cmds with
  | nil => exact .inl ⟨rfl, rfl⟩
  | cons kind rest => exact .inr ⟨_, _, _, _, rfl, rfl, kind, rest⟩

theorem SameButData.acceptAndHold : SameButData (acceptAndHold s) (acceptAndHold s') := by
  rcases sameProgress_cases h.inFlight with ⟨free, free'⟩ | ⟨f, f', busy, busy', _⟩
  · rcases h.cmds_cases with ⟨empty, empty'⟩ | ⟨w, w', ws, ws', hc, hc', kind, rest⟩
    · rwa [acceptAndHold_idle free empty, acceptAndHold_idle free' empty']
    · rw [acceptAndHold_accept free hc, acceptAndHold_accept free' hc']
      have req : (wordRequest w s.regs).isSome = (wordRequest w' s'.regs).isSome := by
        rw [isSome_wordRequest, isSome_wordRequest, outline_wordEffect_congr kind h.shape]
      exact { h with cmds := rest, inFlight := ⟨kind, req⟩ }
  · rwa [acceptAndHold_busy busy, acceptAndHold_busy busy']

theorem SameButData.advance : ∃ t t', advance s = .next t ∧ advance s' = .next t' ∧ SameButData t t' := by
  rcases sameProgress_cases h.inFlight with ⟨free, free'⟩ | ⟨f, f', busy, busy', kind, _⟩
  · rcases h.cmds_cases with ⟨empty, empty'⟩ | ⟨w, w', ws, ws', hc, hc', kind, rest⟩
    · exact ⟨s, s', advance_idle free empty, advance_idle free' empty', h⟩
    · have accepted : SameButData { s with cmds := ws } { s' with cmds := ws' } := { h with cmds := rest }
      exact ⟨_, _, advance_accept free hc, advance_accept free' hc',
        accepted.commit (outline_wordEffect_congr kind h.shape _)⟩
  · have finished : SameButData { s with inFlight := none } { s' with inFlight := none } :=
      { h with inFlight := trivial }
    exact ⟨_, _, advance_inFlight busy, advance_inFlight busy',
      finished.commit (outline_wordEffect_congr kind h.shape _)⟩

theorem SameButData.stepCue (c : Cue) :
    ∃ t t', stepCue c s = .next t ∧ stepCue c s' = .next t' ∧ SameButData t t' := by
  cases c with
  | go =>
    obtain ⟨u, u', hu, hu', same⟩ := h.takeResponse.advance
    exact ⟨_, _, congrArg (mapNext State.takeResponse) hu, congrArg (mapNext State.takeResponse) hu', same.takeResponse⟩
  | hold => exact ⟨_, _, rfl, rfl, h.takeResponse.acceptAndHold⟩
  | rspStall =>
    have port := h.rspPort
    rcases Option.eq_none_or_eq_some s.rspPort with hp | ⟨p, hp⟩
    · rw [hp, Option.map_none, eq_comm, Option.map_eq_none_iff] at port
      rw [Machine.stepCue, Machine.stepCue, stepRspStall_free hp, stepRspStall_free port]
      exact h.advance
    · rw [hp, Option.map_some, eq_comm, Option.map_eq_some_iff] at port
      obtain ⟨p', hp', _⟩ := port
      exact ⟨s, s', stepRspStall_waiting hp, stepRspStall_waiting hp', h⟩
  | lateAnswer => exact ⟨s, s', rfl, rfl, h⟩
  | rst => exact ⟨_, _, rfl, rfl, h.afterReset⟩

theorem SameButData.step : ∃ t t', step s = .next t ∧ step s' = .next t' ∧ SameButData t t' := by
  have cues := h.cues
  rcases hc : s.cues with _ | ⟨c, cs⟩
  · rw [step_of_cues_nil hc, step_of_cues_nil (cues.symm.trans hc)]
    exact h.stepCue .go
  · have later : SameButData { s with cues := cs } { s' with cues := cs } := { h with cues := rfl }
    rw [step_of_cues_cons hc, step_of_cues_cons (cues.symm.trans hc)]
    exact later.stepCue c

end SameButData

/-! ## Blocks byte by byte, and as numbers -/

theorem val_xor16 (a b : Block) : val (xor16 a b) = val a ^^^ val b := by
  rw [← toNat_blockBus, blockBus_xor16, BitVec.toNat_xor, toNat_blockBus, toNat_blockBus]

/-- `MSB(a)` by the first byte (R123). -/
theorem msb_eq_decide_first (a : Block) : msb a = decide (0x80 ≤ a[0].toNat) :=
  BitVec.msb_eq_decide a[0]

/-! ## The statements -/

/-- Settles O39: what a step shows depends on the kinds of the words and the shape of the registers. -/
theorem sequencingIgnoresData : Obligations.SequencingIgnoresData := fun _ _ h => h.step

/-- Settles O43: the laws of XOR in each byte, and on the bus for the number. -/
theorem xorBlockLaws : Obligations.XorBlockLaws := by
  refine fun a b c => ⟨getElem_xor16 a b, block_ext fun i hi => ?_, block_ext fun i hi => ?_, xor16_zero16 a,
    block_ext fun i hi => ?_, val_xor16 a b⟩
  · rw [getElem_xor16, getElem_xor16, BitVec.xor_comm]
  · rw [getElem_xor16, getElem_xor16, getElem_xor16, getElem_xor16, BitVec.xor_assoc]
  · rw [getElem_xor16, getElem_zero16, BitVec.xor_self]
    rfl

/-- Settles O44: only the last byte has none after it to take a bit from. -/
theorem shiftLeftOne : Obligations.ShiftLeftOne := by
  refine fun a => ⟨fun i h => ?_, ?_, val_shl1 a⟩
  · rw [getElem_shl1, dif_pos (Nat.succ_lt_succ h)]
  · rw [getElem_shl1, dif_neg (by decide)]
    exact BitVec.or_zero

/-- Settles O45: the top bit of the bus, and of the first byte. -/
theorem topBitByValue : Obligations.TopBitByValue := by
  refine fun a => ⟨rfl, ?_, ?_⟩
  · rw [msb_eq_decide, decide_eq_true_iff]
  · rw [msb_eq_decide_first, decide_eq_true_iff]

/-- Settles O48, by where a byte stands to index `c`. -/
theorem paddingBytes : Obligations.PaddingBytes := by
  intro buf c h
  have before (i : Nat) (hi : i < 16) (lt : i < c) : (pad buf c)[i] = buf[i] := by
    rw [getElem_pad, if_pos lt]
  have pad_at : (pad buf c)[c] = 0x80 := by
    rw [getElem_pad, if_neg (Nat.lt_irrefl c), if_pos rfl, padByte]
  have after (i : Nat) (hi : i < 16) (gt : c < i) : (pad buf c)[i] = 0x00 := by
    rw [getElem_pad, if_neg (Nat.lt_asymm gt), if_neg (Nat.ne_of_gt gt)]
  refine ⟨before, pad_at, after, fun zero => block_ext fun i hi => ?_⟩
  rcases Nat.lt_trichotomy i c with lt | rfl | gt
  · rw [before i hi lt, Vector.getElem_set_ne h hi (Nat.ne_of_gt lt)]
  · rw [pad_at, Vector.getElem_set_self]
  · rw [after i hi gt, Vector.getElem_set_ne h hi (Nat.ne_of_lt gt), zero i hi (Nat.le_of_lt gt)]

end Sys2Proof.Machine

/-! Theorems about the cipher oracle (43_cipher_oracle.md): the shared facts first, then each statement. -/

namespace Sys2Proof.Machine

/-! ## The requests of a command (R140, R141) -/

/-- Every oracle call a command makes evaluates `ENC` with the registers as they were before the command. -/
theorem Writes.exists_eq_encCall {E : Oracle} {i : Instr} {r r' : Regs} {calls : List OracleCall}
    (h : Writes E r i r' calls) : ∀ c ∈ calls, ∃ p, c = encCall E r p := by
  cases h with
  | kept | clr | keybRoom | keybFull | initBadLength | msgbRoom => exact List.forall_mem_nil _
  | initOk | msgbFull | final => exact List.forall_mem_singleton.2 ⟨_, rfl⟩

/-! ## The test oracles (R147) -/

/-- There are finitely many blocks: each has its own value on the 128-bit bus. -/
theorem finite_block : Finite Block := .of_injective blockBus blockBus_injective

/-- Byte `j` of the plaintext can be read back from byte `(j + 15) mod 16` of `E_TOY1`'s answer: XOR with the folded key
and addition of the index are both injective. -/
theorem eToy1_injective (key : List Byte) : Function.Injective (eToy1 key) := fun p q same =>
  block_ext fun j hj => by
    have hi : (j + 15) % 16 < 16 := Nat.mod_lt _ (by decide)
    have source : ((j + 15) % 16 + 1) % 16 = j := by omega
    have byte : (eToy1 key p)[(j + 15) % 16] = (eToy1 key q)[(j + 15) % 16] := by rw [same]
    rw [getElem_eToy1, getElem_eToy1, BitVec.add_left_inj, BitVec.xor_left_inj] at byte
    simpa only [source] using byte

/-! ## The statements -/

/-- Settles O19: the first hold puts the word in progress, and the others leave it so. -/
theorem oracleSilenceHasNoTimeout : Obligations.OracleSilenceHasNoTimeout :=
  fun n _ _ _ _ free noResponse presented silent =>
    (run_hold n noResponse silent).trans (congrArg _ (acceptAndHold_accept free presented))

/-- Settles O41: the answer to `ENC(p)` is `E` of the key's first `KLEN` bytes and `p`. -/
theorem requestsCarryEngineKey : Obligations.RequestsCarryEngineKey := by
  refine fun i s => ⟨_, (effect Config.E i s.regs).calls, exec_eq_commit i s, rfl, fun c hc => ?_⟩
  obtain ⟨p, rfl⟩ := (effect_writes Config.E i s.regs).exists_eq_encCall c hc
  exact ⟨rfl, rfl, rfl⟩

/-- Settles O42: `E_ID` is the identity, and `E_TOY1` is injective on a finite set. -/
theorem testOraclesArePermutations : Obligations.TestOraclesArePermutations :=
  have := finite_block
  ⟨fun _ _ => Function.bijective_id, fun key _ => Finite.injective_iff_bijective.1 (eToy1_injective key)⟩

end Sys2Proof.Machine

/-! Theorems about the control commands (44_control_commands.md): the shared facts first, then each statement. -/

namespace Sys2Proof

/-! ## The words with opcode 0 -/

/-- The word of a command is its opcode and, in the low byte, its operand (30_encoding.md R63). -/
theorem toNat_encode (i : Instr) : (encode i).toNat = i.opcode.toNat * 4096 + i.imm8.toNat := by
  rw [encode, toNat_wordOf]
  simp [Instr.fields]

theorem eq_nop_of_opcode_eq_zero {i : Instr} (h : i.opcode.toNat = 0) : i = .nop := by
  cases i with
  | nop => rfl
  | clr | keyb | init | msgb | final | rdtag | stat => cases h

/-- Of the words with opcode 0 only `0x0000` is a command's, `NOP` (44_control_commands.md R150). -/
theorem isLegal_decode_of_opcode_zero {w : Word16} (pos : 0x0000 < w.toNat) (le : w.toNat ≤ 0x0fff) :
    (decode w).isLegal = false := by
  rw [← Bool.not_eq_true, Decoded.isLegal_iff]
  rintro ⟨i, hi⟩
  obtain rfl := eq_encode_of_decode hi
  have number := toNat_encode i
  obtain rfl := eq_nop_of_opcode_eq_zero (i := i) (by omega)
  exact absurd pos (by decide)

end Sys2Proof

namespace Sys2Proof.Machine

/-! ## What `CLR` alone can undo -/

/-- Every command but `CLR` leaves `TAGV` set: `FINAL` sets it or is refused, and the others do not write it (R151). -/
theorem Writes.tagv_kept_set {E : Oracle} {i : Instr} {r r' : Regs} {calls : List OracleCall}
    (h : Writes E r i r' calls) (hr : r.tagv = true) (hc : i ≠ .clr) : r'.tagv = true := by
  by_cases hf : i = .final
  · subst hf
    cases h with
    | kept => exact hr
    | final => rfl
  · exact (h.tag_frame hf hc).2.trans hr

/-! ## The statements -/

/-- Settles O28: `NOP` only responds, and `toNat_encode` leaves no other command for the words below `0x1000`. -/
theorem nopRespondsOk : Obligations.NopRespondsOk :=
  ⟨rfl, fun _ => exec_of_respond rfl, fun _ => isLegal_decode_of_opcode_zero⟩

/-- Settles O29: the other commands by what each can write, `CLR` by its register writes. -/
theorem clrResetsRegisters : Obligations.ClrResetsRegisters := by
  refine ⟨rfl, fun i s hc => ⟨_, exec_eq_commit i s, fun keyed => ?_, fun tagv => ?_⟩, fun s => exec_of_respond rfl⟩
  · obtain ⟨key, _, _, _, keyed'⟩ := (effect_writes Config.E i s.regs).keyMaterial_frame keyed hc
    exact ⟨keyed', key⟩
  · exact (effect_writes Config.E i s.regs).tagv_kept_set tagv hc

/-- Settles O34, by the two cases of `RDTAG`. -/
theorem rdtagReturnsTag : Obligations.RdtagReturnsTag :=
  ⟨rfl, fun s => ⟨fun noTag => exec_of_respond (rdtagEffect_noTag s.regs noTag),
    fun tagv => exec_of_respond (rdtagEffect_tag s.regs tagv)⟩⟩

/-- Settles O35: the response is the `STATUS` view, whose fields do not overlap. -/
theorem statReturnsStatus : Obligations.StatReturnsStatus := by
  refine ⟨rfl, fun s => ⟨s.regs.status, toNat_status s.regs, exec_of_respond rfl, ?_, ?_⟩⟩
  · exact getElem_status_data s.regs.status 14 (by decide)
  · exact getElem_status_data s.regs.status 15 (by decide)

end Sys2Proof.Machine

/-! Theorems about the errors (60_exceptions.md): the shared facts first, then each statement. -/

namespace Sys2Proof.Machine

/-! ## What a response says about its command -/

/-- When a command is answered with an error, as the table of R171 lists it: by what its word decodes to and the
registers. -/
def ErrorCode.condition (r : Regs) (d : Decoded) : ErrorCode → Prop
  | .invalidKeySize => d = .legal .init ∧ r.keyed = false ∧ r.klen.toNat ∉ Config.keyLengths
  | .illegalCmd => d.isLegal = false
  | .badState =>
    (r.keyed = true ∧ ((∃ b, d = .legal (.keyb b)) ∨ d = .legal .init)) ∨
      (r.keyed = false ∧ ((∃ b, d = .legal (.msgb b)) ∨ d = .legal .final))
  | .noTag => d = .legal .rdtag ∧ r.tagv = false

/-- The registers after an error: the same, but for the key that `ERR_INVALID_KEY_SIZE` wipes (R172). -/
def ErrorCode.regsLeft (r : Regs) : ErrorCode → Regs
  | .invalidKeySize => { r with key := zero32, klen := 0 }
  | .illegalCmd => r
  | .badState => r
  | .noTag => r

theorem ErrorCode.regsLeft_of_ne {e : ErrorCode} (r : Regs) (h : e ≠ .invalidKeySize) : e.regsLeft r = r := by
  cases e with
  | invalidKeySize => exact absurd rfl h
  | illegalCmd | badState | noTag => rfl

/-- The effects that a word can have on the registers `r`, by their response: a tag is the `TAG` register's, a status is
that of `r`, and an error comes under its condition and leaves nothing else behind. -/
inductive Answers (r : Regs) (d : Decoded) : Effect → Prop where
  | ok (r' : Regs) (calls : List OracleCall) : Answers r d ⟨r', calls, .ok⟩
  | tag (r' : Regs) (calls : List OracleCall) (valid : r'.tagv = true) : Answers r d ⟨r', calls, .tag r'.tag⟩
  | status : Answers r d (respond r (.status r.status))
  | error (e : ErrorCode) (h : e.condition r d) : Answers r d (raise (e.regsLeft r) e)

theorem effect_answers (E : Oracle) (i : Instr) (r : Regs) : Answers r (.legal i) (effect E i r) := by
  cases i with
  | nop | clr => exact .ok ..
  | keyb b =>
    rcases Bool.eq_false_or_eq_true r.keyed with keyed | unkeyed
    · rw [effect, keybEffect_keyed _ _ keyed]
      exact .error .badState (.inl ⟨keyed, .inl ⟨b, rfl⟩⟩)
    rcases Nat.lt_or_ge r.klen.toNat 32 with room | full
    · rw [effect, keybEffect_room _ _ unkeyed room]
      exact .ok ..
    · rw [effect, keybEffect_full _ _ unkeyed full]
      exact .ok ..
  | init =>
    rcases Bool.eq_false_or_eq_true r.keyed with keyed | unkeyed
    · rw [effect, initEffect_keyed _ _ keyed]
      exact .error .badState (.inl ⟨keyed, .inr rfl⟩)
    by_cases legal : r.klen.toNat ∈ Config.keyLengths
    · rw [effect, initEffect_ok _ _ unkeyed legal]
      exact .ok ..
    · rw [effect, initEffect_badLength _ _ unkeyed legal]
      exact .error .invalidKeySize ⟨rfl, unkeyed, legal⟩
  | msgb b =>
    rcases Bool.eq_false_or_eq_true r.keyed with keyed | unkeyed
    · by_cases full : r.cnt = 16
      · rw [effect, msgbEffect_full _ _ _ keyed full]
        exact .ok ..
      · rw [effect, msgbEffect_room _ _ _ keyed full]
        exact .ok ..
    · rw [effect, msgbEffect_unkeyed _ _ _ unkeyed]
      exact .error .badState (.inr ⟨unkeyed, .inl ⟨b, rfl⟩⟩)
  | final =>
    rcases Bool.eq_false_or_eq_true r.keyed with keyed | unkeyed
    · rw [effect, finalEffect_keyed _ _ keyed]
      exact .tag _ _ rfl
    · rw [effect, finalEffect_unkeyed _ _ unkeyed]
      exact .error .badState (.inr ⟨unkeyed, .inr rfl⟩)
  | rdtag =>
    rcases Bool.eq_false_or_eq_true r.tagv with tagv | noTag
    · rw [effect, rdtagEffect_tag _ tagv]
      exact .tag r [] tagv
    · rw [effect, rdtagEffect_noTag _ noTag]
      exact .error .noTag ⟨rfl, noTag⟩
  | stat => exact .status

theorem wordEffect_answers (E : Oracle) (w : Word16) (r : Regs) : Answers r (decode w) (wordEffect E w r) := by
  cases hd : decode w with
  | legal i => rw [wordEffect_of_legal _ _ hd]; exact effect_answers E i r
  | illegal c => rw [wordEffect_of_illegal _ _ hd]; exact .error .illegalCmd rfl

section Answers
variable {r : Regs} {d : Decoded} {eff : Effect} (h : Answers r d eff)
include h

theorem Answers.of_error {e : ErrorCode} (he : eff.rsp = .error e) :
    e.condition r d ∧ eff = raise (e.regsLeft r) e := by
  cases h with
  | ok | tag | status => cases he
  | error _ condition => cases he; exact ⟨condition, rfl⟩

theorem Answers.of_status {v : Word16} (hv : eff.rsp = .status v) : v = r.status := by
  cases h with
  | ok | tag | error => cases hv
  | status => cases hv; rfl

theorem Answers.of_tag {t : Block} (ht : eff.rsp = .tag t) : t = eff.regs.tag ∧ eff.regs.tagv = true := by
  cases h with
  | ok | status | error => cases ht
  | tag _ _ valid => cases ht; exact ⟨rfl, valid⟩

end Answers

/-! ## Errors -/

/-- An error is given exactly under its condition (R171). -/
theorem wordEffect_error_iff (E : Oracle) (w : Word16) (r : Regs) (e : ErrorCode) :
    (wordEffect E w r).rsp = .error e ↔ e.condition r (decode w) := by
  refine ⟨fun he => ((wordEffect_answers E w r).of_error he).1, fun h => ?_⟩
  cases e with
  | invalidKeySize =>
    obtain ⟨hd, unkeyed, bad⟩ := h
    rw [wordEffect_of_legal _ _ hd, effect, initEffect_badLength _ _ unkeyed bad, raise_rsp]
  | illegalCmd =>
    cases hd : decode w with
    | legal i => rw [hd] at h; cases h
    | illegal c => rw [wordEffect_of_illegal _ _ hd, raise_rsp]
  | badState =>
    rcases h with ⟨keyed, ⟨b, hd⟩ | hd⟩ | ⟨unkeyed, ⟨b, hd⟩ | hd⟩
    · rw [wordEffect_of_legal _ _ hd, effect, keybEffect_keyed _ _ keyed, raise_rsp]
    · rw [wordEffect_of_legal _ _ hd, effect, initEffect_keyed _ _ keyed, raise_rsp]
    · rw [wordEffect_of_legal _ _ hd, effect, msgbEffect_unkeyed _ _ _ unkeyed, raise_rsp]
    · rw [wordEffect_of_legal _ _ hd, effect, finalEffect_unkeyed _ _ unkeyed, raise_rsp]
  | noTag =>
    obtain ⟨hd, noTag⟩ := h
    rw [wordEffect_of_legal _ _ hd, effect, rdtagEffect_noTag _ noTag, raise_rsp]

/-- An error changes the response, and the registers as R172 says, and nothing else (R170). -/
theorem commit_of_error {E : Oracle} {w : Word16} {s : State} {e : ErrorCode}
    (he : (wordEffect E w s.regs).rsp = .error e) :
    s.commit (wordEffect E w s.regs) = { s with regs := e.regsLeft s.regs, rspPort := some (.error e) } := by
  rw [((wordEffect_answers E w s.regs).of_error he).2]
  simp [State.commit]

theorem Response.isError_iff (p : Response) : p.isError = true ↔ ∃ e, p = .error e := by
  cases p <;> simp [Response.isError]

/-! ## Responses of one code (R184) -/

section Code
variable {p : Response}

theorem Response.eq_ok_of_code (h : p.code = Response.ok.code) : p = .ok := by
  cases p with
  | ok => rfl
  | tag | status => cases h
  | error e => cases e <;> cases h

theorem Response.eq_tag_of_code {t : Block} (h : p.code = (Response.tag t).code) : ∃ t', p = .tag t' := by
  cases p with
  | tag t' => exact ⟨t', rfl⟩
  | ok | status => cases h
  | error e => cases e <;> cases h

theorem Response.eq_status_of_code {v : Word16} (h : p.code = (Response.status v).code) : ∃ v', p = .status v' := by
  cases p with
  | status v' => exact ⟨v', rfl⟩
  | ok | tag => cases h
  | error e => cases e <;> cases h

theorem ErrorCode.code_injective : Function.Injective ErrorCode.code := fun e e' => by
  cases e <;> cases e' <;> decide

theorem Response.eq_error_of_code {e : ErrorCode} (h : p.code = (Response.error e).code) : p = .error e := by
  cases p with
  | error e' => exact congrArg _ (ErrorCode.code_injective h)
  | ok | tag | status => cases e <;> cases h

end Code

theorem status_congr {r r' : Regs} (h : r.shape = r'.shape) : r.status = r'.status := by
  obtain ⟨keyed, klen, cnt, tagv⟩ := Shape.mk.inj h
  rw [Regs.status, Regs.status, keyed, klen, cnt, tagv]

/-- Two answers of one code, from registers of one shape, are the same, or each is its own `TAG` register's. -/
theorem Answers.rsp_congr {r r' : Regs} {d d' : Decoded} {eff eff' : Effect} (h : Answers r d eff)
    (h' : Answers r' d' eff') (shape : r.shape = r'.shape) (code : eff'.rsp.code = eff.rsp.code) :
    (eff.rsp.tag? = none → eff'.rsp = eff.rsp) ∧
      ∀ a, eff.rsp.tag? = some a → a = eff.regs.tag ∧ eff.regs.tagv = true ∧ eff'.rsp.tag? = some eff'.regs.tag := by
  cases h with
  | ok => exact ⟨fun _ => Response.eq_ok_of_code code, nofun⟩
  | error e => exact ⟨fun _ => Response.eq_error_of_code code, nofun⟩
  | status =>
    obtain ⟨v, hv⟩ := Response.eq_status_of_code code
    refine ⟨fun _ => ?_, nofun⟩
    rw [hv, h'.of_status hv, respond_rsp, status_congr shape]
  | tag r₁ calls valid =>
    obtain ⟨t, ht⟩ := Response.eq_tag_of_code code
    refine ⟨nofun, fun a ha => ⟨(Option.some.inj ha).symm, valid, ?_⟩⟩
    rw [ht, (h'.of_tag ht).1]
    rfl

/-! ## The idle engine (R185), and `MSGB` on a keyed one (R176) -/

/-- With nothing to finish, to run or to hand over, no cue but a reset changes anything (R185). -/
theorem stepCue_idle {c : Cue} {s : State} (hc : c ≠ .rst) (free : s.inFlight = none) (empty : s.cmds = [])
    (noResponse : s.rspPort = none) : stepCue c s = .next s := by
  have take : s.takeResponse = s := takeResponse_of_none s noResponse
  cases c with
  | go => rw [stepCue, stepGo, take, advance_idle free empty, mapNext_next, take]
  | hold => rw [stepCue, stepHold, take, acceptAndHold_idle free empty]
  | rspStall => rw [stepCue, stepRspStall_free noResponse, advance_idle free empty]
  | lateAnswer => rfl
  | rst => exact absurd rfl hc

theorem msgbEffect_rsp_of_keyed (E : Oracle) (b : Byte) {r : Regs} (keyed : r.keyed = true) :
    (msgbEffect E b r).rsp = .ok := by
  by_cases full : r.cnt = 16
  · rw [msgbEffect_full _ _ _ keyed full]
  · rw [msgbEffect_room _ _ _ keyed full, respond_rsp]

/-! ## The statements -/

/-- Settles O36: R171's conditions are those the effects are split by, and an error's effect raises it alone. -/
theorem errorsAreExactlyThese : Obligations.ErrorsAreExactlyThese := by
  intro w s
  have exactly := wordEffect_error_iff Config.E w s.regs
  refine ⟨_, _, runWord_eq_commit w s, rfl, exactly .illegalCmd, exactly .badState, exactly .noTag,
    exactly .invalidKeySize, fun isError other => ?_, fun he => ?_⟩
  · obtain ⟨e, he⟩ := (Response.isError_iff _).1 isError
    rw [he] at other
    rw [commit_of_error he, he, ErrorCode.regsLeft_of_ne s.regs fun h => other (congrArg _ h)]
  · rw [commit_of_error he, he]
    rfl

/-- Settles O38: the code shows no data, and only a tag or a status has more than a code to show. -/
theorem responsesHideSecrets : Obligations.ResponsesHideSecrets := by
  intro w s s' shape
  obtain ⟨_, code, _⟩ := outline_eq_iff.1 (outline_wordEffect_congr (w := w) rfl shape Config.E)
  exact ⟨_, _, _, _, runWord_eq_commit w s, runWord_eq_commit w s', rfl, rfl,
    (wordEffect_answers _ w s.regs).rsp_congr (wordEffect_answers _ w s'.regs) shape code.symm⟩

/-- Settles O23, cue by cue. -/
theorem idleKeepsAllState : Obligations.IdleKeepsAllState := fun s _ cs free empty noResponse hs hc =>
  (step_of_cues_cons hs).trans (stepCue_idle (s := { s with cues := cs }) hc free empty noResponse)

/-- Settles O37: the refusals of `MSGB` and `FINAL` are for an unkeyed engine alone. -/
theorem tagPathHasNoError : Obligations.TagPathHasNoError := by
  intro b s keyed
  refine ⟨⟨_, exec_eq_commit _ s, congrArg some (msgbEffect_rsp_of_keyed _ b keyed)⟩, _, exec_eq_commit _ s, ?_⟩
  rw [effect, finalEffect_keyed _ _ keyed]
  exact ⟨rfl, rfl⟩

end Sys2Proof.Machine

/-! Theorems about reset and hazards (70_reset_and_hazards.md): the shared facts first, then each statement. -/

namespace Sys2Proof.Machine

/-! ## The responses given: those taken and the one waiting (R209) -/

/-- All responses the engine has given, oldest first: those the host has taken, and the one it has not. -/
def State.given (s : State) : List Response := s.rsps ++ s.rspPort.toList

/-- What `s` gave still stands in `t`, with at most one more response behind it. -/
def GivesAtMostOne (s t : State) : Prop := ∃ new, t.given = s.given ++ new ∧ new.length ≤ 1

section Given
variable {s t : State}

/-- Taking a response moves it, and loses nothing. -/
theorem given_takeResponse (s : State) : s.takeResponse.given = s.given := List.append_nil _

theorem given_commit (noResponse : s.rspPort = none) (e : Effect) : (s.commit e).given = s.given ++ [e.rsp] := by
  simp [State.given, noResponse]

theorem given_acceptAndHold (s : State) : (acceptAndHold s).given = s.given := by
  obtain ⟨_, _, port, taken, _⟩ := acceptAndHold_frame s
  rw [State.given, port, taken, State.given]

theorem givesAtMostOne_of_eq (h : t.given = s.given) : GivesAtMostOne s t :=
  ⟨[], h.trans (List.append_nil _).symm, Nat.zero_le 1⟩

theorem givesAtMostOne_commit (noResponse : s.rspPort = none) (e : Effect) : GivesAtMostOne s (s.commit e) :=
  ⟨[e.rsp], given_commit noResponse e, Nat.le_refl 1⟩

/-- With the response port free, running a command fills it, and staying idle leaves it free. -/
theorem givesAtMostOne_advance (noResponse : s.rspPort = none) (h : advance s = .next t) : GivesAtMostOne s t := by
  rcases advance_cases s with ⟨f, _, ht⟩ | ⟨w, ws, _, _, ht⟩ | ⟨_, _, ht⟩ <;> cases ht.symm.trans h
  · exact givesAtMostOne_commit (s := { s with inFlight := none }) noResponse _
  · exact givesAtMostOne_commit (s := { s with cmds := ws }) noResponse _
  · exact givesAtMostOne_of_eq rfl

/-- No cue but a reset loses a response, and none lets the engine give two: under `go` the one waiting is taken first, and
under `rspStall` the engine advances only when none waits. -/
theorem givesAtMostOne_stepCue {c : Cue} (hc : c ≠ .rst) (h : stepCue c s = .next t) : GivesAtMostOne s t := by
  cases c with
  | go =>
    obtain ⟨u, advanced, went⟩ := stepGo_next s
    cases went.symm.trans h
    obtain ⟨new, hnew, atMostOne⟩ := givesAtMostOne_advance (takeResponse_rspPort s) advanced
    exact ⟨new, by rw [given_takeResponse, hnew, given_takeResponse], atMostOne⟩
  | hold =>
    cases h
    exact givesAtMostOne_of_eq ((given_acceptAndHold _).trans (given_takeResponse s))
  | rspStall =>
    rcases Option.eq_none_or_eq_some s.rspPort with noResponse | ⟨p, waiting⟩
    · exact givesAtMostOne_advance noResponse ((stepRspStall_free noResponse).symm.trans h)
    · cases (stepRspStall_waiting waiting).symm.trans h
      exact givesAtMostOne_of_eq rfl
  | lateAnswer =>
    cases h
    exact givesAtMostOne_of_eq rfl
  | rst => exact absurd rfl hc

theorem givesAtMostOne_step (noReset : s.cues.head? ≠ some .rst) (h : step s = .next t) : GivesAtMostOne s t := by
  rcases hs : s.cues with _ | ⟨c, cs⟩
  · exact givesAtMostOne_stepCue (c := .go) nofun ((step_of_cues_nil hs).symm.trans h)
  · have hc : c ≠ .rst := fun rst => noReset (by rw [hs, rst, List.head?_cons])
    exact givesAtMostOne_stepCue (s := { s with cues := cs }) hc ((step_of_cues_cons hs).symm.trans h)

end Given

/-! ## How many oracle requests a command makes (R211) -/

section Requests
variable {E : Oracle} {i : Instr} {r r' : Regs} {calls : List OracleCall}

theorem Writes.calls_eq_nil (h : Writes E r i r' calls) (hi : i ≠ .init) (hm : ∀ b, i ≠ .msgb b) (hf : i ≠ .final) :
    calls = [] := by
  cases h with
  | kept | clr | keybRoom | keybFull | initBadLength | msgbRoom => rfl
  | initOk => exact absurd rfl hi
  | msgbFull b => exact absurd rfl (hm b)
  | final => exact absurd rfl hf

theorem Writes.length_calls_init (h : Writes E r .init r' calls) :
    calls.length = if r.keyed = false ∧ r.klen.toNat ∈ Config.keyLengths then 1 else 0 := by
  cases h with
  | kept keyed => exact (if_neg fun c => Bool.eq_false_iff.1 c.1 keyed).symm
  | initBadLength _ bad => exact (if_neg fun c => bad c.2).symm
  | initOk unkeyed legal => exact (if_pos ⟨unkeyed, legal⟩).symm

theorem Writes.length_calls_msgb {b : Byte} (h : Writes E r (.msgb b) r' calls) :
    calls.length = if r.keyed = true ∧ r.cnt = 16 then 1 else 0 := by
  cases h with
  | kept refused => exact (if_neg fun c => by simp [keepsRegs, c.1] at refused).symm
  | msgbRoom _ _ room => exact (if_neg fun c => room c.2).symm
  | msgbFull _ keyed full => exact (if_pos ⟨keyed, full⟩).symm

theorem Writes.length_calls_final (h : Writes E r .final r' calls) :
    calls.length = if r.keyed = true then 1 else 0 := by
  cases h with
  | kept refused => exact (if_neg (by simpa [keepsRegs] using refused)).symm
  | final keyed => exact (if_pos keyed).symm

end Requests

/-! ## The statements -/

/-- Settles O25: a stalled port stops the engine, and no cue but a reset takes back what was given. -/
theorem responsesAreNeverLost : Obligations.ResponsesAreNeverLost := by
  refine ⟨fun s p cs waiting hs => (step_of_cues_cons hs).trans (stepRspStall_waiting waiting), fun s noReset => ?_⟩
  obtain ⟨t, ht⟩ := exists_step_next s
  obtain ⟨new, hnew, atMostOne⟩ := givesAtMostOne_step noReset ht
  exact ⟨t, new, ht, hnew, atMostOne⟩

/-- Settles O40: only `INIT`, `MSGB` and `FINAL` call the oracle, each when it is accepted and, for `MSGB`, the buffer is
full. -/
theorem oracleRequestsPerCommand : Obligations.OracleRequestsPerCommand := by
  intro i s
  refine ⟨_, (effect Config.E i s.regs).calls, exec_eq_commit i s, rfl, ?_⟩
  have writes := effect_writes Config.E i s.regs
  cases i with
  | nop | clr | keyb | rdtag | stat => exact congrArg List.length (writes.calls_eq_nil nofun nofun nofun)
  | init => exact writes.length_calls_init
  | msgb b => exact writes.length_calls_msgb
  | final => exact writes.length_calls_final

/-- Settles O18, cue by cue; under `rst` by whether a command, and a request of it, is outstanding. -/
theorem resetAbandonsCommand : Obligations.ResetAbandonsCommand := by
  refine fun s cs => ⟨fun hs => ?_, fun ct hs => step_of_cues_cons hs, fun f busy hs => ?_⟩
  · rw [step_of_cues_cons hs, stepCue, State.afterReset]
    rcases s.inFlight with _ | ⟨w, _ | q⟩ <;> rfl
  · rw [step_of_cues_cons hs, stepCue, stepHold,
      acceptAndHold_busy (s := State.takeResponse { s with cues := cs }) busy]
    rfl

end Sys2Proof.Machine
